-- ==== Sys2Proof/Config.lean ====
section
/-! DEFINITION. The parameters of the block (00_scope.md rule R9): constants fixed when the block is built, which no
operation reads or writes as data (10_state.md rule R24). -/

namespace Sys2Proof

/-- The two decode policies that 42_octal.md rule R136 and 43_hex.md rule R156 name. -/
inductive DecodePolicy where
  /-- The result is the unsigned value of the string; a value above `INT32_MAX` fails. -/
  | magnitude
  /-- The result is the signed reading of a value of at most 32 bits; a value above `2^32 - 1` fails. -/
  | wrap
deriving DecidableEq, Repr

namespace Config

/-- `N_WIDTH`: the width of the signed operand port `n` (R9, D2). -/
abbrev nWidth : Nat := 64

/-- `CHARW`: the width of one character code (R9, D3). -/
abbrev charWidth : Nat := 8

/-- `LENW`: the width of a string-length port (R9, D4). -/
abbrev lenWidth : Nat := 6

/-- `LMAX = 2^LENW - 1`: the number of character slots of the request (R9, D4). -/
abbrev lMax : Nat := 63

/-- `OUTMAX`: the number of character slots of the response (R9, D4). -/
abbrev outMax : Nat := 32

/-- `OCT_DECODE_POLICY` of this hardware (R9, R136, D8). -/
def octDecodePolicy : DecodePolicy := .magnitude

/-- `HEX_DECODE_POLICY` of this hardware (R9, R156, D9). -/
def hexDecodePolicy : DecodePolicy := .wrap

end Config

end Sys2Proof
end

