-- ==== Sys2Proof/Word.lean ====
section
/-! DEFINITION. The words of the block: what each port carries (30_encoding.md rules R60 and R61). Bit 0 of every vector
is its least significant bit (00_scope.md rule R10). -/

namespace Sys2Proof

/-- The `op` port (R62). -/
abbrev OpCode := BitVec 3

/-- The integer operand port `n`, two's complement (R67), of `N_WIDTH` bits. -/
abbrev Operand := BitVec 64

/-- BitVector32: index 0 is the least significant bit, index 31 the sign bit (20_memory.md rule R41). -/
abbrev Word32 := BitVec 32

/-- A string-length port (R60, R61), of `LENW` bits. -/
abbrev LenField := BitVec 6

/-- One character code (R70), of `CHARW` bits. -/
abbrev CharCode := BitVec 8

/-- The `status` port (R66). -/
abbrev StatusCode := BitVec 2

/-- The string operand of a decode operation (R64): `none` is the null string, `some cs` the string whose first
(leftmost, most significant) character is the head of `cs` (R12); `some []` is the empty string. -/
abbrev StringOperand := Option (List CharCode)

/-- The character slots of the request, `LMAX` of them (R60). -/
abbrev InputSlots := Vector CharCode 63

/-- The character slots of the response, `OUTMAX` of them (R61). -/
abbrev OutputSlots := Vector CharCode 32

/-- The widths written out above are the parameters of rule R9. -/
theorem port_widths_are_the_parameters :
    Operand = BitVec Config.nWidth ∧ CharCode = BitVec Config.charWidth ∧ LenField = BitVec Config.lenWidth ∧
    InputSlots = Vector CharCode Config.lMax ∧ OutputSlots = Vector CharCode Config.outMax ∧
    Config.lMax = 2 ^ Config.lenWidth - 1 :=
  ⟨rfl, rfl, rfl, rfl, rfl, rfl⟩

end Sys2Proof
end

