-- ==== Sys2Proof/Syntax.lean ====
section
/-! DEFINITION. The operations (30_encoding.md rules R62 and R63), one constructor per row of spec/opcode_table.json, and
the request ports that carry them (rule R60). An instruction holds the operand its format reads and no ignored port
(rule R73; log entry 5). -/

namespace Sys2Proof

/-- The request ports, sampled together as one request (R60, R47). -/
structure Request where
  /-- Operation select (R62). -/
  op : OpCode
  /-- The signed operand of the encode operations (R67). -/
  n : Operand
  /-- `true`: a string is supplied; `false`: the string is null (R64). -/
  sPresent : Bool
  /-- The number of characters of the supplied string (R64). -/
  sLen : LenField
  /-- The character slots; slot 0 holds the first character (20_memory.md rule R45). -/
  sChar : InputSlots
deriving DecidableEq, Repr

/-- One constructor per row of the operation table (R62). -/
inductive Instr where
  /-- `op = 000`, `encodeBinary32` (R100). -/
  | encbin (n : Operand)
  /-- `op = 001`, `decodeBinary32` (R110). -/
  | decbin (str : StringOperand)
  /-- `op = 010`, `encodeOctal32` (R130). -/
  | encoct (n : Operand)
  /-- `op = 011`, `decodeOctal32` (R135). -/
  | decoct (str : StringOperand)
  /-- `op = 100`, `encodeHex32` (R150). -/
  | enchex (n : Operand)
  /-- `op = 101`, `decodeHex32` (R155). -/
  | dechex (str : StringOperand)
  /-- `op = 110`, reserved (R72). -/
  | reserved6
  /-- `op = 111`, reserved (R72). -/
  | reserved7
deriving DecidableEq, Repr

end Sys2Proof
end

