-- ==== Sys2Proof/WellFormed.lean ====
section
/-! DEFINITION. Which instructions a correct caller can present: the string fits the input port (30_encoding.md rule R64)
and the operation is not a reserved one (rule R72). -/

namespace Sys2Proof

/-- A string the input port can carry: null, or at most `LMAX` characters (R64, U10). -/
def fitsPort (str : StringOperand) : Bool :=
  match str with
  | none => true
  | some cs => cs.length ≤ Config.lMax

/-- The instruction's operand fits the request ports, whatever the operation is. -/
def Instr.presentable : Instr → Bool
  | .encbin _ => true
  | .decbin str => fitsPort str
  | .encoct _ => true
  | .decoct str => fitsPort str
  | .enchex _ => true
  | .dechex str => fitsPort str
  | .reserved6 => true
  | .reserved7 => true

/-- The operation is one of the two codes that a caller must not issue (R72). -/
def Instr.reserved : Instr → Bool
  | .encbin _ => false
  | .decbin _ => false
  | .encoct _ => false
  | .decoct _ => false
  | .enchex _ => false
  | .dechex _ => false
  | .reserved6 => true
  | .reserved7 => true

/-- A request with a reserved `op` is not well-formed (R72), and a string of more than `LMAX` characters is not a
request at all (R64, U10). -/
def Instr.wellFormed (i : Instr) : Bool :=
  i.presentable && !i.reserved

end Sys2Proof
end

