-- ==== Sys2Proof/Decode.lean ====
section
/-! DEFINITION. Reading the instruction off the request ports and writing it onto them (30_encoding.md rules R60 to R64,
R72, R73). Every one of the eight `op` codes is a row of the table, so the decoder is total; the two reserved codes decode
to their own constructors, which are ill-formed and which exec refuses by name. -/

namespace Sys2Proof

/-- `L` character slots holding the string `cs` from slot 0 on, the slots after it at `0x00` (20_memory.md rule R45). -/
def slotsOf (len : Nat) (cs : List CharCode) : Vector CharCode len :=
  Vector.ofFn fun k => cs.getD k.val 0x00#8

/-- The string operand on the request ports (R64): null when `s_present = 0`; otherwise the characters of slots
`0..s_len-1`, the slots from `s_len` on ignored. -/
def Request.stringOperand (r : Request) : StringOperand :=
  if r.sPresent then some (r.sChar.toList.take r.sLen.toNat) else none

/-- The operation on the `op` port with the operand of its format (R62, R63). Ports the format ignores are dropped
(R73). -/
def decode (r : Request) : Instr :=
  if r.op = 0b000#3 then .encbin r.n
  else if r.op = 0b001#3 then .decbin r.stringOperand
  else if r.op = 0b010#3 then .encoct r.n
  else if r.op = 0b011#3 then .decoct r.stringOperand
  else if r.op = 0b100#3 then .enchex r.n
  else if r.op = 0b101#3 then .dechex r.stringOperand
  else if r.op = 0b110#3 then .reserved6
  else .reserved7

/-- A request that drives `op` alone, every other port at 0 (log entry 5). -/
def Request.ofOp (op : OpCode) : Request :=
  { op := op, n := 0, sPresent := false, sLen := 0, sChar := slotsOf 63 [] }

/-- A request of format ENC (R63): `op` and `n`. -/
def Request.ofInteger (op : OpCode) (n : Operand) : Request :=
  { Request.ofOp op with n := n }

/-- A request of format DEC (R63): `op` and the string, `s_len` its length (R64). -/
def Request.ofString (op : OpCode) (str : StringOperand) : Request :=
  match str with
  | none => Request.ofOp op
  | some cs =>
    { Request.ofOp op with
      sPresent := true, sLen := BitVec.ofNat 6 cs.length, sChar := slotsOf 63 cs }

/-- The request ports that present an instruction (R62, R63). -/
def encode : Instr → Request
  | .encbin n => .ofInteger 0b000#3 n
  | .decbin str => .ofString 0b001#3 str
  | .encoct n => .ofInteger 0b010#3 n
  | .decoct str => .ofString 0b011#3 str
  | .enchex n => .ofInteger 0b100#3 n
  | .dechex str => .ofString 0b101#3 str
  | .reserved6 => .ofOp 0b110#3
  | .reserved7 => .ofOp 0b111#3

/-- The request ports that a word of spec/opcode_table.json drives: the table gives a row the three bits of the `op`
port and no bit of an operand port, so bits 2..0 of the word's `nbits` bits are on `op`, no port carries a higher one,
and every operand port is at 0 (log entry 5). -/
def requestOfWord (nbits w : Nat) : Request :=
  Request.ofOp (BitVec.ofNat 3 (w % 2 ^ nbits))

/-- The instruction the decoder reads from a word of the table. -/
def decodeTableWord (nbits w : Nat) : Option Instr :=
  some (decode (requestOfWord nbits w))

end Sys2Proof
end

