-- ==== Sys2Proof/Machine/State.lean ====
section
/-! DEFINITION. The state: the ports of the present transaction, and nothing else. The block keeps nothing between two
transactions (10_state.md rule R20) and has no register, program counter, flag, control register or memory (rules R21 to
R26); the ports are the only visible values (rule R29). Holding them in a state is the model's choice (log entry 1). -/

namespace Sys2Proof.Machine

/-- The response ports (30_encoding.md rule R61). -/
structure Response where
  /-- Success or failure kind (R66). -/
  status : StatusCode
  /-- The Signed32 result of a decode operation (R68). -/
  rInt : Word32
  /-- The number of characters of an encode operation's result (R65). -/
  rLen : LenField
  /-- The result characters; slot 0 is the first, most significant one (R65, 20_memory.md rule R45). -/
  rChar : OutputSlots
deriving DecidableEq, Repr

/-- The ports of the present transaction (R29). -/
structure State where
  /-- What the caller drives (R60). -/
  request : Request
  /-- What the block drives (R61). -/
  response : Response
deriving DecidableEq, Repr

/-- Reasons a step stops the machine with a fault: there are none. The three failures of the taxonomy are results delivered
on `status` in the same transaction (00_scope.md rule R18, 60_exceptions.md rule R204), so they are next states (log
entry 6). -/
inductive Fault
deriving DecidableEq, Repr

/-- Reasons a step is refused. -/
inductive Refusal where
  /-- An instruction that has no meaning in this model yet, raised by exec alone. Safe: nothing can be proved of it. No
  arm of exec raises it. -/
  | notModelled (mnemonic : String)
  /-- The `op` port carries a reserved code (30_encoding.md rule R72, U5), raised by the meanings of the two reserved
  rows. Safe: the hardware answers with any value, and nothing can be proved of that answer. -/
  | reservedOp (op : OpCode)
deriving DecidableEq, Repr

/-- The block before any transaction. It has no reset and no reset value (10_state.md rule R30): the request ports are at
0 by the model's choice (log entry 2), and the response ports carry the response to that request, thirty-two characters
`0`, because they are at all times the function of the request ports (70_reset_and_hazards.md rule R240; log entry 3). -/
def State.reset : State :=
  { request := Request.ofOp 0b000#3
    response := { status := 0b00#2, rInt := 0, rLen := 32, rChar := Vector.replicate 32 0x30#8 } }

end Sys2Proof.Machine
end

