-- ==== Sys2Proof/Machine/Flags.lean ====
section
/-! DEFINITION. The condition results of a transaction. The block stores no flag (10_state.md rule R23): what there is, is
the range condition of the overflow_detector (44_helpers.md rules R180 to R182) and the failure kind on the `status` port
(30_encoding.md rule R66). -/

namespace Sys2Proof.Machine

/-- `INT32_MIN` (00_scope.md rule R8). -/
def int32Min : Int := -2147483648

/-- `INT32_MAX` (00_scope.md rule R8). -/
def int32Max : Int := 2147483647

/-- `OVF(value)`, NSC's `isOutOfSigned32Range` (R180). -/
def ovf (value : Int) : Bool :=
  value < int32Min || int32Max < value

/-- The overflow_detector in its internal port form, `ov_in` to `ov_out` (R182): `OVF` of the signed reading. `OVW` is
`max(N_WIDTH, 34)`, 64. -/
def overflowDetector (ovIn : BitVec 64) : Bool :=
  ovf ovIn.toInt

/-- The three failure kinds, and no other (60_exceptions.md rule R200). -/
inductive FailureKind where
  | invalidArgument
  | formatError
  | overflowError
deriving DecidableEq, Repr

/-- The code of success on the `status` port (R66). -/
def statusOk : StatusCode := 0b00#2

/-- The code of a failure kind on the `status` port (R66). -/
def statusOf (kind : FailureKind) : StatusCode :=
  match kind with
  | .invalidArgument => 0b01#2
  | .formatError => 0b10#2
  | .overflowError => 0b11#2

end Sys2Proof.Machine
end

