-- ==== Sys2Proof/Machine/Operands.lean ====
section
/-! DEFINITION. The operand forms: the value of the integer port (30_encoding.md rule R67), the alphabets and digit values
of characters (44_helpers.md rule R185), the numeric value of a validated string (30_encoding.md rule R69), and the
validations of the decode operations in each operation's own order (60_exceptions.md rule R203). -/

namespace Sys2Proof.Machine

/-- `sint(n)`, the mathematical value of the operand port (R67). -/
def sint (n : Operand) : Int := n.toInt

/-- The length test of DECBIN V1 (R64, R110): a null string has no length and passes it. -/
def longerThan (limit : Nat) (str : StringOperand) : Bool :=
  match str with
  | none => false
  | some cs => limit < cs.length

/-- The bases whose digit strings cross the ports (00_scope.md rule R3). -/
inductive Base where
  | binary
  | octal
  | hex
deriving DecidableEq, Repr

/-- The number a base is. -/
def Base.radix (b : Base) : Nat :=
  match b with
  | .binary => 2
  | .octal => 8
  | .hex => 16

/-- The value of a character among the twenty-two that have one, in any base (R185, first part). -/
def charDigit (c : CharCode) : Option Nat :=
  if 0x30 ≤ c.toNat ∧ c.toNat ≤ 0x39 then some (c.toNat - 0x30)
  else if 0x41 ≤ c.toNat ∧ c.toNat ≤ 0x46 then some (c.toNat - 0x41 + 10)
  else if 0x61 ≤ c.toNat ∧ c.toNat ≤ 0x66 then some (c.toNat - 0x61 + 10)
  else none

/-- `CHARVAL(c, B)` (R185): the digit value, or `none` for a character outside the alphabet of the base. -/
def charVal (c : CharCode) (b : Base) : Option Nat :=
  match charDigit c with
  | some v => if v < b.radix then some v else none
  | none => none

/-- The digits of a string, first character first, or `none` when some character is outside the alphabet of the base
(R187). -/
def digitsOf (b : Base) : List CharCode → Option (List Nat)
  | [] => some []
  | c :: cs =>
    match charVal c b, digitsOf b cs with
    | some d, some ds => some (d :: ds)
    | _, _ => none

/-- `value_B` of a digit list, first digit first (R69): digit `k` of `L` has weight `B^(L-1-k)` (20_memory.md rule R43).
The value is exact (42_octal.md rule R137). -/
def valueOf (radix : Nat) : List Nat → Nat
  | [] => 0
  | d :: ds => d * radix ^ ds.length + valueOf radix ds

/-- The alphabet check and the accumulation that follows it: `FormatError` or the exact value (DECBIN V3 and A1, DECOCT
and DECHEX V2 and A1). -/
def parseDigits (b : Base) (cs : List CharCode) : Except FailureKind Nat :=
  match digitsOf b cs with
  | none => .error .formatError
  | some ds => .ok (valueOf b.radix ds)

/-- The null or empty check, then the alphabet check (V1 and V2 of 42_octal.md rule R135 and 43_hex.md rule R155; V2 and V3
of 41_binary.md rule R110). -/
def parseString (b : Base) (str : StringOperand) : Except FailureKind Nat :=
  match str with
  | none => .error .invalidArgument
  | some [] => .error .invalidArgument
  | some cs => parseDigits b cs

end Sys2Proof.Machine
end

