-- ==== Sys2Proof/Machine/Ops.lean ====
section
/-! DEFINITION. The shared operations: the bit-level stages of the encoder (41_binary.md rule R100), the
twos_complement_converter (44_helpers.md rules R170 to R177), the groupers (20_memory.md rule R44), the digit-to-character
helper (44_helpers.md rule R183), the delivery of a result or a failure on the response ports (30_encoding.md rules R65,
R68, R77; 60_exceptions.md rule R204), and the caller's moves on the ports. -/

namespace Sys2Proof.Machine

/-! ## Bits of a BitVector32 -/

/-- `v` with bit `i` written. -/
def writeBit (v : Word32) (i : Nat) (b : Bool) : Word32 :=
  if b then v ||| (1#32 <<< i) else v &&& ~~~(1#32 <<< i)

/-- The loop of ENCBIN step 5 (R100), from bit `i` on for `count` bits: least significant bit first, the magnitude halved
each time. -/
def fillBits : (count i magnitude : Nat) → Word32 → Word32
  | 0, _, _, bv => bv
  | count + 1, i, magnitude, bv =>
    fillBits count (i + 1) (magnitude / 2) (writeBit bv i (magnitude % 2 == 1))

/-- ENCBIN step 5: the magnitude as exactly 32 bits (R103). -/
def magnitudeBits (magnitude : Nat) : Word32 :=
  fillBits 32 0 magnitude 0

/-! ## twos_complement_converter -/

/-- The add-one stage of `TCNEG` (R170), from bit `i` on for `count` bits; it stops once the carry is 0 (R171), and a carry
out of the last bit is dropped. -/
def addCarry : (count i : Nat) → (carry : Bool) → Word32 → Word32
  | 0, _, _, w => w
  | _ + 1, _, false, w => w
  | count + 1, i, true, w =>
    addCarry count (i + 1) (w.getLsbD i) (writeBit w i (!w.getLsbD i))

/-- `TCNEG(bv)` (R170): invert every bit, then add one from the least significant bit upward. -/
def tcneg (bv : Word32) : Word32 :=
  addCarry 32 0 true (~~~bv)

/-- `TCSIGNED(u)` for `0 ≤ u ≤ 2^32 - 1` (R175). -/
def tcsigned (u : Nat) : Int :=
  if u ≤ 2147483647 then (u : Int) else (u : Int) - 4294967296

/-- The twos_complement_converter in its internal port form (R177): `tc_mode` 0 negates, 1 passes `tc_in` through. -/
def twosComplementConverter (tcIn : Word32) (tcMode : Bool) : Word32 :=
  if tcMode then tcIn else tcneg tcIn

/-- The range check and the result of an octal or hexadecimal decode under a policy: steps A2 and A3 of 42_octal.md rule
R135 and 43_hex.md rule R155 and the other policy of each (R136, R156). The value is compared exactly (R137, R158). -/
def signedUnderPolicy (policy : DecodePolicy) (v : Nat) : Except FailureKind Int :=
  match policy with
  | .magnitude => if ovf v then .error .overflowError else .ok v
  | .wrap => if 4294967295 < v then .error .overflowError else .ok (tcsigned v)

/-! ## Encoding -/

/-- The vector of ENCBIN steps 4 to 6 (R100): the magnitude's bits, negated for a negative operand. This is the vector that
ENCBIN renders for every in-range operand, the two special cases of its steps 1 and 2 being redundant (R102; log
entry 8). -/
def encoderVector (n : Int) : Word32 :=
  let bv := magnitudeBits n.natAbs
  if n < 0 then twosComplementConverter bv false else bv

/-- `DIGITCHAR(d)`, NSC's `nibbleToHexChar` (R183); `d` is a 4-bit value, so no other digit exists (R184). -/
def digitChar (d : BitVec 4) : CharCode :=
  if d.toNat ≤ 9 then BitVec.ofNat 8 (0x30 + d.toNat) else BitVec.ofNat 8 (0x41 + (d.toNat - 10))

/-- Bit `i` of the vector as a digit weight, 0 above bit 31 (42_octal.md rule R130: `bvx`). -/
def bitValue (bv : Word32) (i : Nat) : BitVec 4 :=
  if bv.getLsbD i then 1 else 0

/-- The digit of octal group `g` (R130, R131): bits `3g+2`, `3g+1`, `3g`. -/
def octalGroup (bv : Word32) (g : Nat) : BitVec 4 :=
  4 * bitValue bv (3 * g + 2) + 2 * bitValue bv (3 * g + 1) + bitValue bv (3 * g)

/-- The digit of nibble `g` (43_hex.md rule R150): bits `4g+3` to `4g`. -/
def hexGroup (bv : Word32) (g : Nat) : BitVec 4 :=
  8 * bitValue bv (4 * g + 3) + 4 * bitValue bv (4 * g + 2) + 2 * bitValue bv (4 * g + 1) + bitValue bv (4 * g)

/-- The characters of the digits `digit (count-1)`, …, `digit 0`: most significant first (20_memory.md rule R42). -/
def render (digit : Nat → BitVec 4) : (count : Nat) → List CharCode
  | 0 => []
  | count + 1 => digitChar (digit count) :: render digit count

/-- A fixed string of `count` characters `0`. -/
def zeroChars (count : Nat) : List CharCode :=
  List.replicate count 0x30#8

/-! ## Delivery on the response ports -/

/-- The response of a successful encode operation (R65, R77). -/
def Response.ofChars (t : List CharCode) : Response :=
  { status := statusOk, rInt := 0, rLen := BitVec.ofNat 6 t.length, rChar := slotsOf 32 t }

/-- The response of a successful decode operation (R68, R77). -/
def Response.ofSigned (v : Int) : Response :=
  { status := statusOk, rInt := BitVec.ofInt 32 v, rLen := 0, rChar := slotsOf 32 [] }

/-- The response of a failed operation: the kind, and zero on every result port (R77, R204). -/
def Response.failure (kind : FailureKind) : Response :=
  { status := statusOf kind, rInt := 0, rLen := 0, rChar := slotsOf 32 [] }

/-- Drive the response ports; the request ports are the caller's and keep what they carry. -/
def State.respond (s : State) (r : Response) : State :=
  { s with response := r }

/-- Raise a failure: the one way an operation fails (R204). Nothing is saved and control goes nowhere, and there is no
return from it (R205). -/
def State.raiseFailure (s : State) (kind : FailureKind) : State :=
  s.respond (.failure kind)

/-- Deliver what an encode operation returned or raised. -/
def State.deliverChars (s : State) (result : Except FailureKind (List CharCode)) : State :=
  match result with
  | .ok t => s.respond (.ofChars t)
  | .error kind => s.raiseFailure kind

/-- Deliver what a decode operation returned or raised. -/
def State.deliverSigned (s : State) (result : Except FailureKind Int) : State :=
  match result with
  | .ok v => s.respond (.ofSigned v)
  | .error kind => s.raiseFailure kind

/-! ## The caller's moves -/

/-- The request presented to the block: what a step samples, whole (20_memory.md rule R47). -/
def State.presented (s : State) : Request := s.request

/-- The caller puts a request on the request ports (R14). -/
def State.drive (s : State) (r : Request) : State :=
  { s with request := r }

/-- The caller's copy of a result string into a decode request, slot for slot (70_reset_and_hazards.md rule R245); the
ports that rule does not name are at 0 (log entry 5). -/
def Response.chainString (r : Response) (op : OpCode) : Request :=
  { Request.ofOp op with
    sPresent := true, sLen := r.rLen, sChar := slotsOf 63 (r.rChar.toList.take r.rLen.toNat) }

/-- The caller's copy of an integer result into an encode request, sign-extended to `N_WIDTH` bits (30_encoding.md rule
R67). -/
def Response.chainInteger (r : Response) (op : OpCode) : Request :=
  Request.ofInteger op (r.rInt.signExtend 64)

end Sys2Proof.Machine
end

