-- ==== Sys2Proof/Machine/Binary.lean ====
section
/-! DEFINITION. The binary operations ENCBIN and DECBIN (41_binary.md). -/

namespace Sys2Proof.Machine

/-- NSC's `encodeBinary32`, the seven steps of rule R100 in their order. -/
def encodeBinary32 (n : Int) : Except FailureKind (List CharCode) :=
  if n = 0 then .ok (zeroChars 32)
  else if n = int32Min then .ok (0x31#8 :: zeroChars 31)
  else if ovf n then .error .overflowError
  else .ok (render (bitValue (encoderVector n)) 32)

/-- NSC's `decodeBinary32` (R110): length above 32, null or empty, alphabet (R111), then the value's low 32 bits read as
two's complement (R113). -/
def decodeBinary32 (str : StringOperand) : Except FailureKind Int :=
  if longerThan 32 str then .error .overflowError
  else
    match parseString .binary str with
    | .error kind => .error kind
    | .ok acc => .ok (tcsigned (acc % 4294967296))

/-- ENCBIN (R100). -/
def execEncbin (n : Operand) (s : State) : Host.Outcome State Fault Refusal :=
  .next (s.deliverChars (encodeBinary32 (sint n)))

/-- DECBIN (R110). -/
def execDecbin (str : StringOperand) (s : State) : Host.Outcome State Fault Refusal :=
  .next (s.deliverSigned (decodeBinary32 str))

end Sys2Proof.Machine
end

