-- ==== Sys2Proof/Machine/Hex.lean ====
section
/-! DEFINITION. The hexadecimal operations ENCHEX and DECHEX (43_hex.md). -/

namespace Sys2Proof.Machine

/-- NSC's `encodeHex32` (R150): the range check, the special case of 0, then eight nibbles. -/
def encodeHex32 (n : Int) : Except FailureKind (List CharCode) :=
  if ovf n then .error .overflowError
  else if n = 0 then .ok (zeroChars 8)
  else .ok (render (hexGroup (encoderVector n)) 8)

/-- NSC's `decodeHex32` (R155) under a policy (R156): null or empty, alphabet, value range (R159); no length limit
(R158). -/
def decodeHex32 (policy : DecodePolicy) (str : StringOperand) : Except FailureKind Int :=
  match parseString .hex str with
  | .error kind => .error kind
  | .ok v => signedUnderPolicy policy v

/-- ENCHEX (R150). -/
def execEnchex (n : Operand) (s : State) : Host.Outcome State Fault Refusal :=
  .next (s.deliverChars (encodeHex32 (sint n)))

/-- DECHEX (R155), under this hardware's policy. -/
def execDechex (str : StringOperand) (s : State) : Host.Outcome State Fault Refusal :=
  .next (s.deliverSigned (decodeHex32 Config.hexDecodePolicy str))

end Sys2Proof.Machine
end

