-- ==== Sys2Proof/Machine/Octal.lean ====
section
/-! DEFINITION. The octal operations ENCOCT and DECOCT (42_octal.md). -/

namespace Sys2Proof.Machine

/-- NSC's `encodeOctal32` (R130): the range check, the special case of 0, then eleven groups of three bits. -/
def encodeOctal32 (n : Int) : Except FailureKind (List CharCode) :=
  if ovf n then .error .overflowError
  else if n = 0 then .ok (zeroChars 11)
  else .ok (render (octalGroup (encoderVector n)) 11)

/-- NSC's `decodeOctal32` (R135) under a policy (R136): null or empty, alphabet, value range (R138); no length limit
(R137). -/
def decodeOctal32 (policy : DecodePolicy) (str : StringOperand) : Except FailureKind Int :=
  match parseString .octal str with
  | .error kind => .error kind
  | .ok v => signedUnderPolicy policy v

/-- ENCOCT (R130). -/
def execEncoct (n : Operand) (s : State) : Host.Outcome State Fault Refusal :=
  .next (s.deliverChars (encodeOctal32 (sint n)))

/-- DECOCT (R135), under this hardware's policy. -/
def execDecoct (str : StringOperand) (s : State) : Host.Outcome State Fault Refusal :=
  .next (s.deliverSigned (decodeOctal32 Config.octDecodePolicy str))

end Sys2Proof.Machine
end

