-- ==== Sys2Proof/Machine/Reserved.lean ====
section
/-! DEFINITION. The two reserved operation codes (30_encoding.md rule R72): the response is unspecified and the model
refuses the request. -/

namespace Sys2Proof.Machine

/-- `op = 110` (R72, R213, U5): refused. -/
def execReserved6 (_ : State) : Host.Outcome State Fault Refusal :=
  .refused (.reservedOp 0b110#3)

/-- `op = 111` (R72, R213, U5): refused. -/
def execReserved7 (_ : State) : Host.Outcome State Fault Refusal :=
  .refused (.reservedOp 0b111#3)

end Sys2Proof.Machine
end

