-- ==== Sys2Proof/Machine/Dispatch.lean ====
section
/-! DEFINITION. The meaning of every operation, one arm per row of the table (30_encoding.md rule R62). -/

namespace Sys2Proof.Machine

def exec (i : Instr) (s : State) : Host.Outcome State Fault Refusal :=
  match i with
  | .encbin n => Sys2Proof.Machine.execEncbin n s
  | .decbin str => Sys2Proof.Machine.execDecbin str s
  | .encoct n => Sys2Proof.Machine.execEncoct n s
  | .decoct str => Sys2Proof.Machine.execDecoct str s
  | .enchex n => Sys2Proof.Machine.execEnchex n s
  | .dechex str => Sys2Proof.Machine.execDechex str s
  | .reserved6 => Sys2Proof.Machine.execReserved6 s
  | .reserved7 => Sys2Proof.Machine.execReserved7 s

end Sys2Proof.Machine
end

