-- ==== Sys2Proof/Machine/Step.lean ====
section
/-! DEFINITION. One step is one transaction (00_scope.md rule R16): the request ports are sampled whole (20_memory.md rule
R47), the operation on them is decoded (30_encoding.md rule R62) and its response is driven. -/

namespace Sys2Proof.Machine

/-- The step function of rules R19 and R62. -/
def step (s : State) : Host.Outcome State Fault Refusal :=
  exec (decode s.presented) s

/-- `s` with the instruction of a table word on the request ports, its operand ports at 0. The block stores no program and
fetches nothing (10_state.md rule R22): this stands for the caller putting the request on the ports (log entry 1). -/
def State.withFetchWord (s : State) (nbits w : Nat) : State :=
  s.drive (requestOfWord nbits w)

end Sys2Proof.Machine
end

