-- ==== Sys2Proof/Safety.lean ====
section
/-! DEFINITION. The terms claims use: the three rows of the response table (30_encoding.md rule R77), which responses are
legal, when the ports are settled, the alphabets and the numeral value written independently of the decoder's functions,
and a caller that presents one request after another. -/

namespace Sys2Proof.Safety

open Sys2Proof.Machine

/-! ## The response table (R77) -/

/-- Row 1: an encode operation succeeded with the characters `t`. -/
def stringAnswer (t : List CharCode) : Response :=
  { status := 0b00#2
    rInt := 0x00000000#32
    rLen := BitVec.ofNat 6 t.length
    rChar := Vector.ofFn fun k => t.getD k.val 0x00#8 }

/-- Row 2: a decode operation succeeded with the 32-bit result `v`. -/
def integerAnswer (v : Word32) : Response :=
  { status := 0b00#2, rInt := v, rLen := 0#6, rChar := Vector.replicate 32 0x00#8 }

/-- Row 3: an operation failed with the status code `code`. -/
def failureAnswer (code : StatusCode) : Response :=
  { status := code, rInt := 0x00000000#32, rLen := 0#6, rChar := Vector.replicate 32 0x00#8 }

/-- `s` after a transaction that answered `r`: the request ports as they were, the response ports driven with `r`. -/
def answered (s : State) (r : Response) : State :=
  { request := s.request, response := r }

/-- A character that an encode operation can emit: `0` to `9` or `A` to `F` (R65, 43_hex.md rule R152). -/
abbrev outputChar (c : CharCode) : Prop :=
  (0x30 ≤ c.toNat ∧ c.toNat ≤ 0x39) ∨ (0x41 ≤ c.toNat ∧ c.toNat ≤ 0x46)

/-- The response is of one of the three forms of R77: a failure with every result port at zero; a decode result with no
character; an encode result of 32, 11 or 8 characters of the output alphabet, zero after them, with no integer. -/
abbrev LegalResponse (r : Response) : Prop :=
  (r.status ≠ 0 ∧ r = failureAnswer r.status) ∨
  (r = integerAnswer r.rInt) ∨
  (r.status = 0 ∧ r.rInt = 0 ∧ (r.rLen = 32 ∨ r.rLen = 11 ∨ r.rLen = 8) ∧
    ∀ k : Fin 32, if k.val < r.rLen.toNat then outputChar r.rChar[k] else r.rChar[k] = 0x00#8)

/-- The response ports already carry the response to the request on the request ports (70_reset_and_hazards.md rule R240):
a step changes nothing. -/
def Settled (s : State) : Prop :=
  step s = .next s

/-! ## Strings, written without the decoder's functions -/

/-- `{0,1}` (R71). -/
abbrev binaryChar (c : CharCode) : Prop := c = 0x30#8 ∨ c = 0x31#8

/-- `{0-7}` (R71). -/
abbrev octalChar (c : CharCode) : Prop := 0x30 ≤ c.toNat ∧ c.toNat ≤ 0x37

/-- `{0-9,A-F,a-f}` (R71). -/
abbrev hexChar (c : CharCode) : Prop :=
  (0x30 ≤ c.toNat ∧ c.toNat ≤ 0x39) ∨ (0x41 ≤ c.toNat ∧ c.toNat ≤ 0x46) ∨ (0x61 ≤ c.toNat ∧ c.toNat ≤ 0x66)

/-- The digit a character of `{0-9,A-F,a-f}` stands for; of no meaning on another character. -/
def digit (c : CharCode) : Nat :=
  if c.toNat ≤ 0x39 then c.toNat - 0x30 else if c.toNat ≤ 0x46 then c.toNat - 0x37 else c.toNat - 0x57

/-- The number a digit string writes in a base, read from its first character on: each further character multiplies by the
base and adds its digit. -/
def numeral (radix : Nat) (cs : List CharCode) : Nat :=
  cs.foldl (fun value c => radix * value + digit c) 0

/-- The character of a digit `0..15` (44_helpers.md rule R183). -/
def digitCode (d : Nat) : CharCode :=
  if d < 10 then BitVec.ofNat 8 (0x30 + d) else BitVec.ofNat 8 (0x37 + d)

/-- The `count`-digit numeral of `u` in a base, leading zeros kept, most significant digit first. -/
def paddedNumeral (radix count u : Nat) : List CharCode :=
  (List.range count).map fun k => digitCode (u / radix ^ (count - 1 - k) % radix)

/-- `[INT32_MIN, INT32_MAX]` (00_scope.md rule R8). -/
abbrev inSigned32 (v : Int) : Prop := -2147483648 ≤ v ∧ v ≤ 2147483647

/-- `n mod 2^32` as a natural number. -/
def unsigned32 (v : Int) : Nat := (v % 4294967296).toNat

/-! ## A caller -/

/-- One transaction: the caller puts a request on the ports and the block steps. -/
def transact (s : State) (r : Request) : Host.Outcome State Fault Refusal :=
  step (s.drive r)

/-- The ports the caller goes on from: those of the next state, or, when the request was refused, the ports it drove (the
block keeps nothing, so a refusal leaves nothing behind either; log entry 9). -/
def portsAfter (s : State) (r : Request) : State :=
  match transact s r with
  | .next t => t
  | .fault _ => s.drive r
  | .refused _ => s.drive r

/-- The responses a caller samples for a list of requests presented one after another; `none` for a refused one. -/
def transcript (s : State) : List Request → List (Option Response)
  | [] => []
  | r :: rs =>
    (match transact s r with
     | .next t => some t.response
     | .fault _ => none
     | .refused _ => none) :: transcript (portsAfter s r) rs

end Sys2Proof.Safety
end

