-- ==== Sys2Proof/Certificates/Slice0/Obligations.lean ====
section
/-! DEFINITION. The statements for the provers. Each docstring names the rule of spec/ it formalises. `answered s r` is `s`
with the response ports driven with `r` and nothing else changed, so an equation `exec i s = .next (answered s r)` is the
result, the completion and the frame of the instruction at once. -/

open Sys2Proof Sys2Proof.Machine Sys2Proof.Safety Host

/-! ## Encoding -/

/-- Decoding the request that presents an instruction gives the instruction back, for every operand the request ports can
carry: every 64-bit `n`, the null string, and every string of at most 63 characters of any codes (30_encoding.md sections 1
to 3). -/
def Obligations.DecodeEncodeAgree : Prop :=
  ∀ i : Instr, i.presentable = true → decode (encode i) = i

/-- Encoding what was decoded gives the request back on every port its format reads, the ignored ports at 0
(30_encoding.md sections 1 and 6; the 0 is the model's choice, log entry 5). -/
def Obligations.EncodeDecodeKeepsUsedPorts : Prop :=
  ∀ r : Request,
    (r.op = 0#3 ∨ r.op = 2#3 ∨ r.op = 4#3 →
      encode (decode r) =
        { op := r.op, n := r.n, sPresent := false, sLen := 0#6, sChar := Vector.replicate 63 0x00#8 }) ∧
    (r.op = 1#3 ∨ r.op = 3#3 ∨ r.op = 5#3 →
      encode (decode r) =
        if r.sPresent then
          { op := r.op, n := 0#64, sPresent := true, sLen := r.sLen,
            sChar := Vector.ofFn fun k => if k.val < r.sLen.toNat then r.sChar[k] else 0x00#8 }
        else { op := r.op, n := 0#64, sPresent := false, sLen := 0#6, sChar := Vector.replicate 63 0x00#8 }) ∧
    (r.op = 6#3 ∨ r.op = 7#3 →
      encode (decode r) =
        { op := r.op, n := 0#64, sPresent := false, sLen := 0#6, sChar := Vector.replicate 63 0x00#8 })

/-- The eight words of the operation table, and one request written port by port (95_test_vectors.md, script P3 line 7),
decode to what they stand for. That a table word presents its operand ports at 0, so that the words decode to operand 0 and
to the null string, is the model's choice (DESIGN CHOICE, log entry 5); the operation each word selects, and the last
clause, are the spec's. -/
def Obligations.TableWordsDecodeToTheirRows : Prop :=
  decodeTableWord 8 0b000 = some (.encbin 0) ∧ decodeTableWord 8 0b001 = some (.decbin none) ∧
  decodeTableWord 8 0b010 = some (.encoct 0) ∧ decodeTableWord 8 0b011 = some (.decoct none) ∧
  decodeTableWord 8 0b100 = some (.enchex 0) ∧ decodeTableWord 8 0b101 = some (.dechex none) ∧
  decodeTableWord 8 0b110 = some .reserved6 ∧ decodeTableWord 8 0b111 = some .reserved7 ∧
  decode { op := 0b001#3, n := 0xFFFFFFFFFFFFFFFF#64, sPresent := true, sLen := 3#6,
           sChar := (Vector.replicate 63 0x5A#8).set 0 0x31#8 |>.set 1 0x30#8 |>.set 2 0x31#8 } =
    .decbin (some [0x31#8, 0x30#8, 0x31#8])

/-! ## The step -/

/-- A step runs the instruction that the request ports carry, and a word put where the step reads its instruction is the
one that runs; the step adds nothing around exec: the request ports stay as the caller drives them. How a word is put on
the request ports is the model's choice (DESIGN CHOICE, log entries 1 and 5), and so is the clause that the response ports
then keep what they carried until the step (DESIGN CHOICE, log entry 4): the spec leaves them unspecified there. -/
def Obligations.StepRunsTheDecodedInstruction : Prop :=
  (∀ (s : State) (i : Instr), decode s.request = i → step s = exec i s) ∧
  (∀ (s : State) (nbits w : Nat) (i : Instr), decodeTableWord nbits w = some i →
    step (s.withFetchWord nbits w) = exec i (s.withFetchWord nbits w) ∧
    (s.withFetchWord nbits w).response = s.response) ∧
  (∀ s t : State, step s = .next t → t.request = s.request)

/-- R74: the step function is total on requests whose `op` is 0 to 5: every value of every other port has a response. -/
def Obligations.SixOperationsAlwaysAnswer : Prop :=
  ∀ s : State, s.request.op.toNat ≤ 5 → ∃ r : Response, step s = .next (answered s r)

/-- R72, R213: a request with a reserved `op` is not well-formed and is refused, with no response and no failure kind. -/
def Obligations.ReservedCodesAreRefused : Prop :=
  (∀ s : State, exec .reserved6 s = .refused (.reservedOp 6#3) ∧ exec .reserved7 s = .refused (.reservedOp 7#3)) ∧
  (∀ s : State, s.request.op = 6#3 ∨ s.request.op = 7#3 →
    (decode s.request).wellFormed = false ∧ step s = .refused (.reservedOp s.request.op))

/-- R73: two requests of the same operation that differ only in ports its format ignores have the same response, whatever
was on the response ports before. -/
def Obligations.IgnoredPortsDoNotMatter : Prop :=
  ∀ s s' : State, s'.request.op = s.request.op →
    ((s.request.op = 0#3 ∨ s.request.op = 2#3 ∨ s.request.op = 4#3) → s'.request.n = s.request.n →
      ∃ r, step s = .next (answered s r) ∧ step s' = .next (answered s' r)) ∧
    ((s.request.op = 1#3 ∨ s.request.op = 3#3 ∨ s.request.op = 5#3) →
      (s.request.sPresent = false ∧ s'.request.sPresent = false) ∨
      (s.request.sPresent = true ∧ s'.request.sPresent = true ∧ s'.request.sLen = s.request.sLen ∧
        ∀ k : Fin 63, k.val < s.request.sLen.toNat → s'.request.sChar[k] = s.request.sChar[k]) →
      ∃ r, step s = .next (answered s r) ∧ step s' = .next (answered s' r))

/-- After a step the ports are settled: the response is the one of the request on the ports, and presenting the same request
again gives the same response again (20_memory.md section 4, 70_reset_and_hazards.md section 1). -/
def Obligations.StepLeavesPortsSettled : Prop :=
  ∀ s t : State, step s = .next t → Settled t

/-- The state the model starts from is settled; its request ports are the model's choice (log entry 2), and its response
ports follow from them (log entry 3). -/
def Obligations.ResetIsSettled : Prop :=
  Settled State.reset ∧ State.reset.request = encode (.encbin 0) ∧
  State.reset.response = stringAnswer (List.replicate 32 0x30#8)

/-- The responses to a script of requests do not depend on what was on the ports before it, and a script put after another
is answered as if it stood alone (20_memory.md section 6; that a refused request leaves nothing behind is log entry 9). -/
def Obligations.ResponsesDoNotDependOnHistory : Prop :=
  ∀ (s s' : State) (rs qs : List Request),
    transcript s rs = transcript s' rs ∧ transcript s (rs ++ qs) = transcript s rs ++ transcript s' qs

/-! ## The response ports -/

/-- Every step keeps the response ports legal: a failure with zero result ports, or an integer with no character, or a
string of 32, 11 or 8 output characters with no integer (30_encoding.md sections 3 and 4). -/
def Obligations.StepKeepsResponseLegal : Prop :=
  ∀ s : State, LegalResponse s.response → ∀ t : State, step s = .next t → LegalResponse t.response

/-- The response ports of the state the model starts from are legal (their value is log entry 3). -/
def Obligations.ResetResponseIsLegal : Prop :=
  LegalResponse State.reset.response

/-- R77: what each response port carries, by outcome, for each operation of the table; a reserved `op` has no response. -/
def Obligations.ResponsePortsByOutcome : Prop :=
  (∀ s : State, s.request.op = 0#3 ∨ s.request.op = 2#3 ∨ s.request.op = 4#3 →
    (∃ t : List CharCode, step s = .next (answered s (stringAnswer t)) ∧
      t.length = if s.request.op = 0#3 then 32 else if s.request.op = 2#3 then 11 else 8) ∨
    step s = .next (answered s (failureAnswer 0b11#2))) ∧
  (∀ s : State, s.request.op = 1#3 ∨ s.request.op = 3#3 ∨ s.request.op = 5#3 →
    (∃ v : Word32, step s = .next (answered s (integerAnswer v))) ∨
    (∃ code : StatusCode, code ≠ 0 ∧ step s = .next (answered s (failureAnswer code)))) ∧
  (∀ s : State, s.request.op = 6#3 ∨ s.request.op = 7#3 → ∃ why, step s = .refused why)

/-! ## The encode operations -/

/-- R104: for an in-range `n`, ENCBIN renders, bit 31 first, the vector `bv32(n mod 2^32)`, whose signed reading is `n`. -/
def Obligations.EncbinRendersThePattern : Prop :=
  ∀ (n : Operand) (s : State), inSigned32 n.toInt →
    ∃ bv : Word32,
      exec (.encbin n) s =
        .next (answered s (stringAnswer ((List.range 32).map fun k => if bv.getLsbD (31 - k) then 0x31#8 else 0x30#8))) ∧
      bv = BitVec.ofNat 32 (unsigned32 n.toInt) ∧ bv.toInt = n.toInt ∧
      (0 ≤ n.toInt → (bv.toNat : Int) = n.toInt) ∧
      (n.toInt < 0 → (bv.toNat : Int) = 4294967296 + n.toInt ∧ bv.getLsbD 31 = true)

/-- R132: for an in-range `n`, ENCOCT answers the 11-digit base-8 numeral of `n mod 2^32`, leading zeros kept. -/
def Obligations.EncoctWritesElevenOctalDigits : Prop :=
  ∀ (n : Operand) (s : State), inSigned32 n.toInt →
    exec (.encoct n) s = .next (answered s (stringAnswer (paddedNumeral 8 11 (unsigned32 n.toInt))))

/-- R131: the first of the eleven characters is the two-bit group of bits 31 and 30, one of `0` to `3`, and `2` or `3`
exactly for a negative operand. -/
def Obligations.OctalTopDigitHoldsTwoBits : Prop :=
  ∀ (n : Operand) (s : State), inSigned32 n.toInt →
    ∃ (c : CharCode) (cs : List CharCode),
      exec (.encoct n) s = .next (answered s (stringAnswer (c :: cs))) ∧ cs.length = 10 ∧
      c = BitVec.ofNat 8 (0x30 + (2 * (n.getLsbD 31).toNat + (n.getLsbD 30).toNat)) ∧
      (c = 0x30#8 ∨ c = 0x31#8 ∨ c = 0x32#8 ∨ c = 0x33#8) ∧ ((c = 0x32#8 ∨ c = 0x33#8) ↔ n.toInt < 0)

/-- R151: for an in-range `n`, ENCHEX answers the 8-digit base-16 numeral of `n mod 2^32` in upper case, leading zeros kept,
and its first character is `8` to `F` exactly for a negative operand; the special case of 0 changes nothing. -/
def Obligations.EnchexWritesEightHexDigits : Prop :=
  ∀ (n : Operand) (s : State), inSigned32 n.toInt →
    ∃ (c : CharCode) (cs : List CharCode),
      c :: cs = paddedNumeral 16 8 (unsigned32 n.toInt) ∧
      exec (.enchex n) s = .next (answered s (stringAnswer (c :: cs))) ∧
      ((c = 0x38#8 ∨ c = 0x39#8 ∨ (0x41 ≤ c.toNat ∧ c.toNat ≤ 0x46)) ↔ n.toInt < 0) ∧
      encodeHex32 n.toInt = .ok (render (hexGroup (encoderVector n.toInt)) 8)

/-- Outside the Signed32 range all three encode operations fail with OverflowError and zero result ports
(60_exceptions.md section 1). -/
def Obligations.EncodersRejectOutOfRange : Prop :=
  ∀ (n : Operand) (s : State), ¬ inSigned32 n.toInt →
    exec (.encbin n) s = .next (answered s (failureAnswer 0b11#2)) ∧
    exec (.encoct n) s = .next (answered s (failureAnswer 0b11#2)) ∧
    exec (.enchex n) s = .next (answered s (failureAnswer 0b11#2))

/-- An operand that is a 32-bit value sign-extended to the port always encodes, and what is written is that value's own
pattern: no such operand overflows (30_encoding.md section 3, 41_binary.md section 1). -/
def Obligations.SignExtendedWordsAlwaysEncode : Prop :=
  ∀ (v : Word32) (s : State),
    exec (.encbin (v.signExtend 64)) s =
      .next (answered s (stringAnswer ((List.range 32).map fun k => if v.getLsbD (31 - k) then 0x31#8 else 0x30#8))) ∧
    exec (.encoct (v.signExtend 64)) s = .next (answered s (stringAnswer (paddedNumeral 8 11 v.toNat))) ∧
    exec (.enchex (v.signExtend 64)) s = .next (answered s (stringAnswer (paddedNumeral 16 8 v.toNat)))

/-- The stepwise encoder and its closed form agree for every in-range operand, 0 and `INT32_MIN` included: the magnitude's
bits hold its absolute value, the vector after the negation is `n` in 32-bit two's complement, and ENCBIN renders that
vector, so that its two special cases change nothing (41_binary.md section 1; log entry 8). -/
def Obligations.EncoderStepsAgreeWithClosedForm : Prop :=
  ∀ n : Int, inSigned32 n →
    (magnitudeBits n.natAbs).toNat = n.natAbs ∧ encoderVector n = BitVec.ofInt 32 n ∧
    encodeBinary32 n = .ok (render (bitValue (encoderVector n)) 32)

/-- The groupers cut ENCBIN's string: each ENCHEX character is the digit of four consecutive characters of it, each ENCOCT
character of three, but for the first, which has the leading two; and the three strings write the same number
(42_octal.md section 1, 43_hex.md section 1). -/
def Obligations.GroupersCutTheBinaryString : Prop :=
  ∀ (n : Operand) (s : State), inSigned32 n.toInt →
    ∃ tbin toct thex : List CharCode,
      exec (.encbin n) s = .next (answered s (stringAnswer tbin)) ∧ tbin.length = 32 ∧
      exec (.encoct n) s = .next (answered s (stringAnswer toct)) ∧
      exec (.enchex n) s = .next (answered s (stringAnswer thex)) ∧
      thex = (List.range 8).map (fun k => digitCode (numeral 2 ((tbin.drop (4 * k)).take 4))) ∧
      toct = digitCode (numeral 2 (tbin.take 2)) ::
        (List.range 10).map (fun k => digitCode (numeral 2 ((tbin.drop (2 + 3 * k)).take 3))) ∧
      numeral 8 toct = numeral 2 tbin ∧ numeral 16 thex = numeral 2 tbin

/-! ## The decode operations -/

/-- R110, R111: DECBIN checks length above 32, then null or empty, then the alphabet, and then answers the low 32 bits of
the value, which is at most `2^32 - 1`. -/
def Obligations.DecbinValidatesThenWraps : Prop :=
  ∀ s : State,
    (∀ cs : List CharCode, 32 < cs.length →
      exec (.decbin (some cs)) s = .next (answered s (failureAnswer 0b11#2))) ∧
    exec (.decbin none) s = .next (answered s (failureAnswer 0b01#2)) ∧
    exec (.decbin (some [])) s = .next (answered s (failureAnswer 0b01#2)) ∧
    (∀ cs : List CharCode, cs.length ≤ 32 → (∃ c ∈ cs, ¬ binaryChar c) →
      exec (.decbin (some cs)) s = .next (answered s (failureAnswer 0b10#2))) ∧
    (∀ cs : List CharCode, 1 ≤ cs.length → cs.length ≤ 32 → (∀ c ∈ cs, binaryChar c) →
      numeral 2 cs ≤ 4294967295 ∧
      exec (.decbin (some cs)) s = .next (answered s (integerAnswer (BitVec.ofNat 32 (numeral 2 cs)))))

/-- R113: the value's signed reading; the result is negative exactly when the string has 32 characters and the first is
`1`. -/
def Obligations.DecbinSignIsTheFirstOf32 : Prop :=
  ∀ (cs : List CharCode) (s : State), 1 ≤ cs.length → cs.length ≤ 32 → (∀ c ∈ cs, binaryChar c) →
    ∃ v : Word32, exec (.decbin (some cs)) s = .next (answered s (integerAnswer v)) ∧
      (numeral 2 cs ≤ 2147483647 → v.toInt = numeral 2 cs) ∧
      (2147483648 ≤ numeral 2 cs → v.toInt = (numeral 2 cs : Int) - 4294967296) ∧
      (v.toInt < 0 ↔ cs.length = 32 ∧ cs.head? = some 0x31#8)

/-- R135, R138: DECOCT checks null or empty, then the alphabet, then the value, and answers the magnitude; a bad character
is a FormatError even where the digits would overflow, and no length is refused. -/
def Obligations.DecoctValidatesThenReadsMagnitude : Prop :=
  ∀ s : State,
    exec (.decoct none) s = .next (answered s (failureAnswer 0b01#2)) ∧
    exec (.decoct (some [])) s = .next (answered s (failureAnswer 0b01#2)) ∧
    (∀ cs : List CharCode, (∃ c ∈ cs, ¬ octalChar c) →
      exec (.decoct (some cs)) s = .next (answered s (failureAnswer 0b10#2))) ∧
    (∀ cs : List CharCode, cs ≠ [] → (∀ c ∈ cs, octalChar c) → 2147483647 < numeral 8 cs →
      exec (.decoct (some cs)) s = .next (answered s (failureAnswer 0b11#2))) ∧
    (∀ cs : List CharCode, cs ≠ [] → (∀ c ∈ cs, octalChar c) → numeral 8 cs ≤ 2147483647 →
      exec (.decoct (some cs)) s = .next (answered s (integerAnswer (BitVec.ofNat 32 (numeral 8 cs)))))

/-- R155: DECHEX checks null or empty, then the alphabet, then the value, and answers the value's 32 bits, to be read as
two's complement. -/
def Obligations.DechexValidatesThenWraps : Prop :=
  ∀ s : State,
    exec (.dechex none) s = .next (answered s (failureAnswer 0b01#2)) ∧
    exec (.dechex (some [])) s = .next (answered s (failureAnswer 0b01#2)) ∧
    (∀ cs : List CharCode, (∃ c ∈ cs, ¬ hexChar c) →
      exec (.dechex (some cs)) s = .next (answered s (failureAnswer 0b10#2))) ∧
    (∀ cs : List CharCode, cs ≠ [] → (∀ c ∈ cs, hexChar c) → 4294967295 < numeral 16 cs →
      exec (.dechex (some cs)) s = .next (answered s (failureAnswer 0b11#2))) ∧
    (∀ cs : List CharCode, cs ≠ [] → (∀ c ∈ cs, hexChar c) → numeral 16 cs ≤ 4294967295 →
      exec (.dechex (some cs)) s = .next (answered s (integerAnswer (BitVec.ofNat 32 (numeral 16 cs)))))

/-- R136: this hardware's octal policy is MAGNITUDE; under WRAP a value above `2^32 - 1` fails and any other is read as
two's complement, so that `"37777777777"` gives -1. -/
def Obligations.OctalPolicyChoosesTheReading : Prop :=
  Config.octDecodePolicy = .magnitude ∧
  (∀ (cs : List CharCode), cs ≠ [] → (∀ c ∈ cs, octalChar c) →
    (2147483647 < numeral 8 cs → decodeOctal32 .magnitude (some cs) = .error .overflowError) ∧
    (numeral 8 cs ≤ 2147483647 → decodeOctal32 .magnitude (some cs) = .ok (numeral 8 cs)) ∧
    (4294967295 < numeral 8 cs → decodeOctal32 .wrap (some cs) = .error .overflowError) ∧
    (numeral 8 cs ≤ 4294967295 → decodeOctal32 .wrap (some cs) = .ok (BitVec.ofNat 32 (numeral 8 cs)).toInt)) ∧
  decodeOctal32 .wrap (some (0x33#8 :: List.replicate 10 0x37#8)) = .ok (-1)

/-- R156: this hardware's hexadecimal policy is WRAP; under MAGNITUDE a value above `INT32_MAX` fails, so that `"80000000"`
to `"FFFFFFFF"` would. -/
def Obligations.HexPolicyChoosesTheReading : Prop :=
  Config.hexDecodePolicy = .wrap ∧
  (∀ (cs : List CharCode), cs ≠ [] → (∀ c ∈ cs, hexChar c) →
    (4294967295 < numeral 16 cs → decodeHex32 .wrap (some cs) = .error .overflowError) ∧
    (numeral 16 cs ≤ 4294967295 → decodeHex32 .wrap (some cs) = .ok (BitVec.ofNat 32 (numeral 16 cs)).toInt) ∧
    (2147483647 < numeral 16 cs → decodeHex32 .magnitude (some cs) = .error .overflowError) ∧
    (numeral 16 cs ≤ 2147483647 → decodeHex32 .magnitude (some cs) = .ok (numeral 16 cs)))

/-- R68: what a decode operation returns is in the Signed32 range, and `r_int` carries it in two's complement. -/
def Obligations.DecodeResultsAreSigned32 : Prop :=
  ∀ (str : StringOperand) (s : State) (v : Int),
    (decodeBinary32 str = .ok v → inSigned32 v ∧
      ∃ w : Word32, w.toInt = v ∧ exec (.decbin str) s = .next (answered s (integerAnswer w))) ∧
    (decodeOctal32 Config.octDecodePolicy str = .ok v → inSigned32 v ∧
      ∃ w : Word32, w.toInt = v ∧ exec (.decoct str) s = .next (answered s (integerAnswer w))) ∧
    (decodeHex32 Config.hexDecodePolicy str = .ok v → inSigned32 v ∧
      ∃ w : Word32, w.toInt = v ∧ exec (.dechex str) s = .next (answered s (integerAnswer w)))

/-- R201: an operation fails if and only if a row of the failure table applies, and with the kind of that row; the last two
clauses are the rows' conditions under the policy this hardware does not take. -/
def Obligations.FailureTableIsExhaustive : Prop :=
  ∀ s : State,
    (∀ n : Operand,
      ∃ rb ro rh : Response, exec (.encbin n) s = .next (answered s rb) ∧ exec (.encoct n) s = .next (answered s ro) ∧
        exec (.enchex n) s = .next (answered s rh) ∧
        ∀ r ∈ [rb, ro, rh], (r.status = 0b00#2 ∨ r.status = 0b11#2) ∧ (r.status = 0b11#2 ↔ ¬ inSigned32 n.toInt)) ∧
    (∀ str : StringOperand, ∃ r : Response, exec (.decbin str) s = .next (answered s r) ∧
      (r.status = 0b11#2 ↔ ∃ cs, str = some cs ∧ 32 < cs.length) ∧
      (r.status = 0b01#2 ↔ str = none ∨ str = some []) ∧
      (r.status = 0b10#2 ↔
        ∃ cs, str = some cs ∧ 1 ≤ cs.length ∧ cs.length ≤ 32 ∧ ∃ c ∈ cs, ¬ binaryChar c)) ∧
    (∀ str : StringOperand, ∃ r : Response, exec (.decoct str) s = .next (answered s r) ∧
      (r.status = 0b01#2 ↔ str = none ∨ str = some []) ∧
      (r.status = 0b10#2 ↔ ∃ cs, str = some cs ∧ 1 ≤ cs.length ∧ ∃ c ∈ cs, ¬ octalChar c) ∧
      (r.status = 0b11#2 ↔
        ∃ cs, str = some cs ∧ 1 ≤ cs.length ∧ (∀ c ∈ cs, octalChar c) ∧ 2147483647 < numeral 8 cs)) ∧
    (∀ str : StringOperand, ∃ r : Response, exec (.dechex str) s = .next (answered s r) ∧
      (r.status = 0b01#2 ↔ str = none ∨ str = some []) ∧
      (r.status = 0b10#2 ↔ ∃ cs, str = some cs ∧ 1 ≤ cs.length ∧ ∃ c ∈ cs, ¬ hexChar c) ∧
      (r.status = 0b11#2 ↔
        ∃ cs, str = some cs ∧ 1 ≤ cs.length ∧ (∀ c ∈ cs, hexChar c) ∧ 4294967295 < numeral 16 cs)) ∧
    (∀ str : StringOperand, decodeOctal32 .wrap str = .error .overflowError ↔
      ∃ cs, str = some cs ∧ 1 ≤ cs.length ∧ (∀ c ∈ cs, octalChar c) ∧ 4294967295 < numeral 8 cs) ∧
    (∀ str : StringOperand, decodeHex32 .magnitude str = .error .overflowError ↔
      ∃ cs, str = some cs ∧ 1 ≤ cs.length ∧ (∀ c ∈ cs, hexChar c) ∧ 2147483647 < numeral 16 cs)

/-- Leading zeros change no answer, an error included: in octal and hexadecimal at any length, in binary while the string
has at most 32 characters (30_encoding.md section 3, 41_binary.md section 2). -/
def Obligations.LeadingZerosChangeNothing : Prop :=
  ∀ (k : Nat) (cs : List CharCode) (s : State), cs ≠ [] →
    exec (.decoct (some (List.replicate k 0x30#8 ++ cs))) s = exec (.decoct (some cs)) s ∧
    exec (.dechex (some (List.replicate k 0x30#8 ++ cs))) s = exec (.dechex (some cs)) s ∧
    (k + cs.length ≤ 32 →
      exec (.decbin (some (List.replicate k 0x30#8 ++ cs))) s = exec (.decbin (some cs)) s)

/-- R157: `A` to `F` and `a` to `f` have the same digit values, and writing any of a string's letters in either case changes
no answer: `ffffff01`, `FFFFFF01` and `FfFfFf01` all give -255. -/
def Obligations.HexLetterCaseDoesNotMatter : Prop :=
  (∀ d < 6, charVal (BitVec.ofNat 8 (0x41 + d)) .hex = some (10 + d) ∧
    charVal (BitVec.ofNat 8 (0x61 + d)) .hex = some (10 + d)) ∧
  (∀ (cs ds : List CharCode) (s : State),
    List.Forall₂ (fun c d => c = d ∨
      (0x41 ≤ c.toNat ∧ c.toNat ≤ 0x46 ∧ d.toNat = c.toNat + 0x20) ∨
      (0x61 ≤ c.toNat ∧ c.toNat ≤ 0x66 ∧ c.toNat = d.toNat + 0x20)) cs ds →
    exec (.dechex (some cs)) s = exec (.dechex (some ds)) s) ∧
  (∀ s : State, ∀ cs ∈ [[0x66#8, 0x66#8, 0x66#8, 0x66#8, 0x66#8, 0x66#8, 0x30#8, 0x31#8],
      [0x46#8, 0x46#8, 0x46#8, 0x46#8, 0x46#8, 0x46#8, 0x30#8, 0x31#8],
      [0x46#8, 0x66#8, 0x46#8, 0x66#8, 0x46#8, 0x66#8, 0x30#8, 0x31#8]],
    exec (.dechex (some cs)) s = .next (answered s (integerAnswer (BitVec.ofInt 32 (-255)))))

/-! ## Round trips through the ports -/

/-- R117: feeding ENCBIN's answer to DECBIN gives the operand back for every Signed32; feeding DECBIN's answer to ENCBIN
gives the string back, padded on the left with `0` to 32 characters. -/
def Obligations.BinaryRoundTrip : Prop :=
  (∀ (n : Operand) (s : State), inSigned32 n.toInt →
    ∃ t u : State, step (s.drive (.ofInteger 0#3 n)) = .next t ∧
      step (t.drive (t.response.chainString 1#3)) = .next u ∧
      u.response.status = 0b00#2 ∧ u.response.rInt.toInt = n.toInt) ∧
  (∀ (cs : List CharCode) (s : State), 1 ≤ cs.length → cs.length ≤ 32 → (∀ c ∈ cs, binaryChar c) →
    ∃ t u : State, step (s.drive (.ofString 1#3 (some cs))) = .next t ∧ t.response.status = 0b00#2 ∧
      step (t.drive (t.response.chainInteger 0#3)) = .next u ∧
      u.response = stringAnswer (List.replicate (32 - cs.length) 0x30#8 ++ cs))

/-- R140: feeding ENCOCT's answer to DECOCT gives the operand back for `0 ≤ n ≤ INT32_MAX` and OverflowError for a negative
`n`; under WRAP it would give every `n` back. -/
def Obligations.OctalRoundTripIsNonNegativeOnly : Prop :=
  ∀ (n : Operand) (s : State), inSigned32 n.toInt →
    ∃ t u : State, step (s.drive (.ofInteger 2#3 n)) = .next t ∧
      step (t.drive (t.response.chainString 3#3)) = .next u ∧
      (0 ≤ n.toInt → u.response.status = 0b00#2 ∧ u.response.rInt.toInt = n.toInt) ∧
      (n.toInt < 0 → u.response = failureAnswer 0b11#2) ∧
      decodeOctal32 .wrap (t.response.chainString 3#3).stringOperand = .ok n.toInt

/-- R160: feeding ENCHEX's answer to DECHEX gives the operand back for every Signed32; under MAGNITUDE it would do so for a
non-negative one only. A short string is zero-extended, and a negative result needs a value of at least `80000000`. -/
def Obligations.HexRoundTrip : Prop :=
  (∀ (n : Operand) (s : State), inSigned32 n.toInt →
    ∃ t u : State, step (s.drive (.ofInteger 4#3 n)) = .next t ∧
      step (t.drive (t.response.chainString 5#3)) = .next u ∧
      u.response.status = 0b00#2 ∧ u.response.rInt.toInt = n.toInt ∧
      decodeHex32 .magnitude (t.response.chainString 5#3).stringOperand =
        if 0 ≤ n.toInt then .ok n.toInt else .error .overflowError) ∧
  (∀ (cs : List CharCode) (s : State), cs ≠ [] → (∀ c ∈ cs, hexChar c) → numeral 16 cs ≤ 4294967295 →
    ∃ v : Word32, exec (.dechex (some cs)) s = .next (answered s (integerAnswer v)) ∧
      (v.toInt < 0 ↔ 0x80000000 ≤ numeral 16 cs) ∧ (cs.length < 8 → v.toInt = numeral 16 cs))

/-- R245: the caller's copy puts the result string on the string port slot for slot; after a failure it presents the empty
string, which every decode operation rejects with InvalidArgument. -/
def Obligations.ChainingCopiesTheResultString : Prop :=
  (∀ (r : Response) (op : OpCode), r.rLen.toNat ≤ 32 →
    (r.chainString op).op = op ∧ (r.chainString op).sPresent = true ∧ (r.chainString op).sLen = r.rLen ∧
    ∀ k : Nat, k < r.rLen.toNat → (r.chainString op).sChar[k]? = r.rChar[k]?) ∧
  (∀ s t : State, step s = .next t → t.response.status ≠ 0b00#2 →
    ∀ op : OpCode, op = 1#3 ∨ op = 3#3 ∨ op = 5#3 →
      ∃ u : State, step (t.drive (t.response.chainString op)) = .next u ∧ u.response = failureAnswer 0b01#2)

/-! ## The sub-blocks -/

/-- R172: the closed form and the laws of TCNEG. -/
def Obligations.TcnegIsTwosComplementNegation : Prop :=
  (∀ bv : Word32, (tcneg bv).toNat = (4294967296 - bv.toNat) % 4294967296 ∧ tcneg (tcneg bv) = bv ∧
    (bv ≠ 0x80000000#32 → (tcneg bv).toInt = - bv.toInt)) ∧
  tcneg 0x00000000#32 = 0x00000000#32 ∧ tcneg 0x80000000#32 = 0x80000000#32 ∧
  tcneg 0x00000001#32 = 0xFFFFFFFF#32 ∧ tcneg 0x7FFFFFFF#32 = 0x80000001#32

/-- R176: TCSIGNED is the signed reading of the 32-bit vector, its range is Signed32, and it inverts `n mod 2^32`. -/
def Obligations.TcsignedIsTheSignedReading : Prop :=
  (∀ u : Nat, u < 4294967296 →
    tcsigned u = (BitVec.ofNat 32 u).toInt ∧ inSigned32 (tcsigned u) ∧ ovf (tcsigned u) = false ∧
    unsigned32 (tcsigned u) = u) ∧
  (∀ n : Int, inSigned32 n → tcsigned (unsigned32 n) = n) ∧
  tcsigned 0 = 0 ∧ tcsigned 2147483647 = 2147483647 ∧ tcsigned 2147483648 = -2147483648 ∧
  tcsigned 4294967295 = -1

/-- R180, the bit form of R181 and the port form of R182: OVF is 1 exactly outside the Signed32 range, which for the operand
port is when bits 63 to 31 are not all equal; a decode value may be presented to the detector saturated at `2^32`. The spec
derives the bit form from the operation rules, and the port form is its own decision (D19: NSC names the helper without
widths). -/
def Obligations.OverflowDetectorIsTheRangeTest : Prop :=
  (∀ v : Int, ovf v = true ↔ v ≤ -2147483649 ∨ 2147483648 ≤ v) ∧
  (∀ n : Operand, overflowDetector n = false ↔ ∀ i : Nat, 31 ≤ i → i ≤ 63 → n.getLsbD i = n.getLsbD 63) ∧
  (∀ v : Nat, overflowDetector (BitVec.ofNat 64 (min v 4294967296)) = ovf v)

/-- R183: the full table of DIGITCHAR. -/
def Obligations.DigitCharTable : Prop :=
  (List.range 16).map (fun d => digitChar (BitVec.ofNat 4 d)) =
    [0x30#8, 0x31#8, 0x32#8, 0x33#8, 0x34#8, 0x35#8, 0x36#8, 0x37#8, 0x38#8, 0x39#8,
     0x41#8, 0x42#8, 0x43#8, 0x44#8, 0x45#8, 0x46#8]

/-- R185: CHARVAL, by the ranges of its definition: the digit value where it is below the base, undefined elsewhere. -/
def Obligations.CharValByRanges : Prop :=
  ∀ (c : CharCode) (b : Base) (v : Nat),
    charVal c b = some v ↔
      v < b.radix ∧
      ((0x30 ≤ c.toNat ∧ c.toNat ≤ 0x39 ∧ v = c.toNat - 0x30) ∨
       (0x41 ≤ c.toNat ∧ c.toNat ≤ 0x46 ∧ v = c.toNat - 0x41 + 10) ∨
       (0x61 ≤ c.toNat ∧ c.toNat ≤ 0x66 ∧ v = c.toNat - 0x61 + 10))

/-- R186: CHARVAL and DIGITCHAR are inverse on digits, and DIGITCHAR of a hexadecimal CHARVAL is the character itself or its
upper-case form. -/
def Obligations.CharValInvertsDigitChar : Prop :=
  (∀ d : BitVec 4, charVal (digitChar d) .hex = some d.toNat ∧
    (d.toNat < 8 → charVal (digitChar d) .octal = some d.toNat) ∧
    (d.toNat < 2 → charVal (digitChar d) .binary = some d.toNat)) ∧
  (∀ (c : CharCode) (v : Nat), charVal c .hex = some v →
    digitChar (BitVec.ofNat 4 v) = if 0x61 ≤ c.toNat then c - 0x20#8 else c)
end

