-- ==== Sys2Proof/Laws/State.lean ====
section
/-! SUPPORT. One lemma per field per update of the state and of a request, and the fields of each response. -/

namespace Sys2Proof.Machine

variable (s : State) (r : Request) (a : Response) (kind : FailureKind) (t : List CharCode) (v : Int)

@[simp] theorem State.respond_request : (s.respond a).request = s.request := rfl
@[simp] theorem State.respond_response : (s.respond a).response = a := rfl
@[simp] theorem State.drive_request : (s.drive r).request = r := rfl
@[simp] theorem State.drive_response : (s.drive r).response = s.response := rfl
@[simp] theorem State.presented_eq : s.presented = s.request := rfl
@[simp] theorem State.withFetchWord_request (nbits w : Nat) : (s.withFetchWord nbits w).request = requestOfWord nbits w := rfl
@[simp] theorem State.withFetchWord_response (nbits w : Nat) : (s.withFetchWord nbits w).response = s.response := rfl
@[simp] theorem State.raiseFailure_request : (s.raiseFailure kind).request = s.request := rfl
@[simp] theorem State.raiseFailure_response : (s.raiseFailure kind).response = .failure kind := rfl
@[simp] theorem State.deliverChars_ok : s.deliverChars (.ok t) = s.respond (.ofChars t) := rfl
@[simp] theorem State.deliverChars_error : s.deliverChars (.error kind) = s.raiseFailure kind := rfl
@[simp] theorem State.deliverSigned_ok : s.deliverSigned (.ok v) = s.respond (.ofSigned v) := rfl
@[simp] theorem State.deliverSigned_error : s.deliverSigned (.error kind) = s.raiseFailure kind := rfl

/-- All that delivering an encode result can do. -/
theorem State.deliverChars_cases (result : Except FailureKind (List CharCode)) :
    (∃ t, result = .ok t ∧ s.deliverChars result = s.respond (.ofChars t)) ∨
    (∃ kind, result = .error kind ∧ s.deliverChars result = s.respond (.failure kind)) := by
  cases result with
  | ok t => exact .inl ⟨t, rfl, rfl⟩
  | error kind => exact .inr ⟨kind, rfl, rfl⟩

/-- All that delivering a decode result can do. -/
theorem State.deliverSigned_cases (result : Except FailureKind Int) :
    (∃ v, result = .ok v ∧ s.deliverSigned result = s.respond (.ofSigned v)) ∨
    (∃ kind, result = .error kind ∧ s.deliverSigned result = s.respond (.failure kind)) := by
  cases result with
  | ok v => exact .inl ⟨v, rfl, rfl⟩
  | error kind => exact .inr ⟨kind, rfl, rfl⟩

@[simp] theorem Response.ofChars_status : (Response.ofChars t).status = 0b00#2 := rfl
@[simp] theorem Response.ofChars_rInt : (Response.ofChars t).rInt = 0 := rfl
@[simp] theorem Response.ofChars_rLen : (Response.ofChars t).rLen = BitVec.ofNat 6 t.length := rfl
@[simp] theorem Response.ofChars_rChar : (Response.ofChars t).rChar = slotsOf 32 t := rfl
@[simp] theorem Response.ofSigned_status : (Response.ofSigned v).status = 0b00#2 := rfl
@[simp] theorem Response.ofSigned_rInt : (Response.ofSigned v).rInt = BitVec.ofInt 32 v := rfl
@[simp] theorem Response.ofSigned_rLen : (Response.ofSigned v).rLen = 0 := rfl
@[simp] theorem Response.failure_status : (Response.failure kind).status = statusOf kind := rfl
@[simp] theorem Response.failure_rInt : (Response.failure kind).rInt = 0 := rfl
@[simp] theorem Response.failure_rLen : (Response.failure kind).rLen = 0 := rfl

theorem statusOf_ne_ok : statusOf kind ≠ 0b00#2 := by cases kind <;> decide

end Sys2Proof.Machine

namespace Sys2Proof

variable (op : OpCode) (n : Operand) (cs : List CharCode)

@[simp] theorem Request.ofOp_op : (Request.ofOp op).op = op := rfl
@[simp] theorem Request.ofOp_n : (Request.ofOp op).n = 0 := rfl
@[simp] theorem Request.ofOp_sPresent : (Request.ofOp op).sPresent = false := rfl
@[simp] theorem Request.ofInteger_op : (Request.ofInteger op n).op = op := rfl
@[simp] theorem Request.ofInteger_n : (Request.ofInteger op n).n = n := rfl
@[simp] theorem Request.ofString_op (str : StringOperand) : (Request.ofString op str).op = op := by cases str <;> rfl
@[simp] theorem Request.ofString_sPresent : (Request.ofString op (some cs)).sPresent = true := rfl
@[simp] theorem Request.ofString_sLen : (Request.ofString op (some cs)).sLen = BitVec.ofNat 6 cs.length := rfl
@[simp] theorem Request.ofString_sChar : (Request.ofString op (some cs)).sChar = slotsOf 63 cs := rfl

/-- What is in a slot: the string's character, or `0x00` after its end (20_memory.md rule R45). -/
@[simp] theorem slotsOf_getElem (len : Nat) (k : Nat) (h : k < len) : (slotsOf len cs)[k] = cs.getD k 0x00#8 := by
  simp [slotsOf]

/-- Slots that hold a string and nothing after it give the string back. -/
theorem take_slotsOf (len : Nat) (h : cs.length ≤ len) : (slotsOf len cs).toList.take cs.length = cs := by
  apply List.ext_getElem
  · simp [h]
  · intro k h1 h2
    simp [h2]

/-- Empty slots. -/
theorem slotsOf_nil (len : Nat) : slotsOf len [] = Vector.replicate len 0x00#8 := by
  ext k hk
  simp

end Sys2Proof
end

