-- ==== Sys2Proof/Laws/Ops.lean ====
section
/-! SUPPORT. What the bit-level stages of the encoder do, said once each. -/

namespace Sys2Proof.Machine

/-- Writing bit `i` changes bit `i` alone. -/
theorem getLsbD_writeBit (v : Word32) (i j : Nat) (b : Bool) (hi : i < 32) :
    (writeBit v i b).getLsbD j = if j = i then b else v.getLsbD j := by
  unfold writeBit
  by_cases hj : j < 32
  · rcases b with _ | _ <;> by_cases hji : j = i <;> simp [hji, hj, hi] <;> omega
  · have hji : j ≠ i := by omega
    have : 32 ≤ j := by omega
    rcases b with _ | _ <;> simp [hji, this]

/-- The fill loop writes the bits of the magnitude from bit `i` on and leaves the bits below. -/
theorem getLsbD_fillBits (count i m : Nat) (bv : Word32) (h : i + count = 32) (j : Nat) :
    (fillBits count i m bv).getLsbD j =
      if j < i then bv.getLsbD j else (decide (j < 32) && m.testBit (j - i)) := by
  induction count generalizing i m bv with
  | zero =>
    by_cases hj : j < i
    · simp [fillBits, hj]
    · have : 32 ≤ j := by omega
      simp [fillBits, hj, this]
  | succ count ih =>
    rw [fillBits, ih (i + 1) (m / 2) _ (by omega), getLsbD_writeBit _ _ _ _ (by omega)]
    by_cases h1 : j < i
    · have h2 : j < i + 1 := by omega
      have h3 : j ≠ i := by omega
      simp [h1, h2, h3]
    · by_cases h2 : j = i
      · subst h2
        have : j < 32 := by omega
        simp [this, Nat.testBit_zero]
        rcases Nat.mod_two_eq_zero_or_one m with h | h <;> simp [h]
      · have h3 : ¬ j < i + 1 := by omega
        have h4 : j - i = (j - (i + 1)) + 1 := by omega
        simp [h1, h3, h4, Nat.testBit_succ]

/-- Setting a bit that is 0 adds its weight. -/
theorem writeBit_true_eq_add (w : Word32) (i : Nat) (h : w.getLsbD i = false) :
    writeBit w i true = w + BitVec.twoPow 32 i := by
  have hand : w &&& BitVec.twoPow 32 i = 0#32 := by
    ext j hj
    by_cases hji : i = j
    · subst hji
      simpa [BitVec.getLsbD_eq_getElem hj] using h
    · simp [Ne.symm hji]
  rw [BitVec.add_eq_or_of_and_eq_zero _ _ hand]
  simp [writeBit, BitVec.twoPow]

/-- Clearing a bit that is 1 takes its weight away. -/
theorem writeBit_false_add (w : Word32) (i : Nat) (hi : i < 32) (h : w.getLsbD i = true) :
    writeBit w i false + BitVec.twoPow 32 i = w := by
  rw [← writeBit_true_eq_add _ _ (by simp [getLsbD_writeBit _ _ _ _ hi])]
  apply BitVec.eq_of_getLsbD_eq
  intro j _
  rw [getLsbD_writeBit _ _ _ _ hi, getLsbD_writeBit _ _ _ _ hi]
  split
  · simp_all
  · rfl

/-- The weight of a bit is twice that of the bit below. -/
theorem twoPow_succ_eq_add (i : Nat) : BitVec.twoPow 32 (i + 1) = BitVec.twoPow 32 i + BitVec.twoPow 32 i := by
  apply BitVec.eq_of_toNat_eq
  simp [BitVec.toNat_twoPow, Nat.pow_succ, Nat.mul_two]

/-- The add-one stage from bit `i` on adds `2^i` when the carry is 1 and nothing when it is 0 (44_helpers.md rule R171). -/
theorem addCarry_eq_add (count i : Nat) (carry : Bool) (w : Word32) (h : i + count = 32) :
    addCarry count i carry w = if carry then w + BitVec.twoPow 32 i else w := by
  induction count generalizing i carry w with
  | zero =>
    obtain rfl : i = 32 := by omega
    cases carry <;> simp [addCarry, BitVec.twoPow]
  | succ count ih =>
    cases carry with
    | false => simp [addCarry]
    | true =>
      have hi : i < 32 := by omega
      rw [addCarry, ih (i + 1) _ _ (by omega)]
      cases hb : w.getLsbD i with
      | false => simpa using writeBit_true_eq_add w i hb
      | true =>
        have hw := writeBit_false_add w i hi hb
        simp only [Bool.not_true, if_true, twoPow_succ_eq_add, ← BitVec.add_assoc, hw]

/-- Rendering gives one character per digit. -/
@[simp] theorem render_length (digit : Nat → BitVec 4) (count : Nat) : (render digit count).length = count := by
  induction count with
  | zero => rfl
  | succ count ih => simp [render, ih]

/-- The characters are those of the digits, most significant first (20_memory.md rule R42). -/
theorem render_eq_map (digit : Nat → BitVec 4) (count : Nat) :
    render digit count = (List.range count).map fun k => digitChar (digit (count - 1 - k)) := by
  induction count with
  | zero => rfl
  | succ count ih =>
    rw [render, ih, List.range_succ_eq_map]
    simp [Function.comp_def]
    intro a ha
    congr 2
    omega

end Sys2Proof.Machine
end

