-- ==== Sys2Proof/Laws/Operands.lean ====
section
/-! SUPPORT. What the operand functions and the two policies do, said once each. -/

namespace Sys2Proof.Machine

/-- A character's digit is below 16. -/
theorem charDigit_lt {c : CharCode} {v : Nat} (h : charDigit c = some v) : v < 16 := by
  unfold charDigit at h
  split at h
  · injection h; omega
  · split at h
    · injection h; omega
    · split at h
      · injection h; omega
      · cases h

/-- When a character is in the alphabet of a base, and with which digit. -/
theorem charVal_eq_some_iff_charDigit (c : CharCode) (b : Base) (v : Nat) :
    charVal c b = some v ↔ charDigit c = some v ∧ v < b.radix := by
  unfold charVal
  cases charDigit c with
  | none => simp
  | some w =>
    simp only [Option.some.injEq]
    constructor
    · intro h
      split at h
      · injection h with h; subst h; exact ⟨rfl, by assumption⟩
      · cases h
    · rintro ⟨rfl, h⟩
      simp [h]

/-- When a string has digits, and which. -/
theorem digitsOf_eq_some_iff (b : Base) (cs : List CharCode) (ds : List Nat) :
    digitsOf b cs = some ds ↔ List.Forall₂ (fun c d => charVal c b = some d) cs ds := by
  induction cs generalizing ds with
  | nil => cases ds <;> simp [digitsOf]
  | cons c cs ih =>
    rw [digitsOf]
    cases hc : charVal c b with
    | none =>
      simp only [false_iff, reduceCtorEq]
      intro h
      cases h with
      | cons h1 _ => simp [hc] at h1
    | some d =>
      cases hcs : digitsOf b cs with
      | none =>
        simp only [false_iff, reduceCtorEq]
        intro h
        cases h with
        | cons _ h2 => simp [(ih _).2 h2] at hcs
      | some es =>
        constructor
        · intro h
          injection h with h
          subst h
          exact .cons hc ((ih es).1 hcs)
        · intro h
          cases h with
          | cons h1 h2 =>
            rw [(ih _).2 h2] at hcs
            injection hcs with hcs
            rw [hc] at h1
            injection h1 with h1
            rw [h1, hcs]

/-- When a string has no digits: some character is outside the alphabet. -/
theorem digitsOf_eq_none_iff (b : Base) (cs : List CharCode) :
    digitsOf b cs = none ↔ ∃ c ∈ cs, charVal c b = none := by
  induction cs with
  | nil => simp [digitsOf]
  | cons c cs ih =>
    rw [digitsOf, List.exists_mem_cons_iff, ← ih]
    cases charVal c b <;> cases digitsOf b cs <;> simp

/-- The value of a digit list that goes on: the front part is shifted by the length of the rest. -/
theorem valueOf_append (radix : Nat) (ds es : List Nat) :
    valueOf radix (ds ++ es) = valueOf radix ds * radix ^ es.length + valueOf radix es := by
  induction ds with
  | nil => simp [valueOf]
  | cons d ds ih => simp [valueOf, ih, pow_add]; ring

/-- The value of `L` digits below the base is below `base^L`. -/
theorem valueOf_lt (radix : Nat) (ds : List Nat) (h : ∀ d ∈ ds, d < radix) :
    valueOf radix ds < radix ^ ds.length := by
  induction ds with
  | nil => simp [valueOf]
  | cons d ds ih =>
    have hd : d + 1 ≤ radix := h d (by simp)
    have hds := ih fun x hx => h x (by simp [hx])
    calc valueOf radix (d :: ds) < d * radix ^ ds.length + radix ^ ds.length := by
          simp only [valueOf]; omega
      _ = (d + 1) * radix ^ ds.length := by ring
      _ ≤ radix * radix ^ ds.length := Nat.mul_le_mul_right _ hd
      _ = radix ^ (d :: ds).length := by simp [pow_succ, Nat.mul_comm]

/-- All that reading a string operand can do. -/
theorem parseString_cases (b : Base) (str : StringOperand) :
    ((str = none ∨ str = some []) ∧ parseString b str = .error .invalidArgument) ∨
    (∃ cs, str = some cs ∧ cs ≠ [] ∧
      ((digitsOf b cs = none ∧ parseString b str = .error .formatError) ∨
       ∃ ds, digitsOf b cs = some ds ∧ parseString b str = .ok (valueOf b.radix ds))) := by
  match str with
  | none => exact .inl ⟨.inl rfl, rfl⟩
  | some [] => exact .inl ⟨.inr rfl, rfl⟩
  | some (c :: cs) =>
    refine .inr ⟨c :: cs, rfl, by simp, ?_⟩
    cases h : digitsOf b (c :: cs) with
    | none => exact .inl ⟨rfl, by simp [parseString, parseDigits, h]⟩
    | some ds => exact .inr ⟨ds, rfl, by simp [parseString, parseDigits, h]⟩

/-- A string of at least one character is parsed by its digits. -/
theorem parseString_some (b : Base) (cs : List CharCode) (h : cs ≠ []) :
    parseString b (some cs) = parseDigits b cs := by
  cases cs with
  | nil => exact absurd rfl h
  | cons c cs => rfl

/-- The MAGNITUDE policy. -/
theorem signedUnderPolicy_magnitude (v : Nat) :
    signedUnderPolicy .magnitude v = if 2147483647 < v then .error .overflowError else .ok (v : Int) := by
  have : ovf (v : Int) = decide (2147483647 < v) := by
    simp only [ovf, int32Min, int32Max]
    have h : ¬ (v : Int) < -2147483648 := by omega
    simp [h]
  simp [signedUnderPolicy, this]

/-- The WRAP policy. -/
theorem signedUnderPolicy_wrap (v : Nat) :
    signedUnderPolicy .wrap v = if 4294967295 < v then .error .overflowError else .ok (tcsigned v) := rfl

end Sys2Proof.Machine
end

