-- ==== Sys2Proof/Laws/PerInstr.lean ====
section
/-! SUPPORT. Statements made for every instruction, one lemma per constructor. -/

namespace Sys2Proof.Laws

/-- The `op` code that presents an instruction: bit 0 is the direction and bits 2..1 the base (30_encoding.md rule R62). The
request an instruction encodes to carries it, and a decode operation's request alone may supply a string. -/
def OpSelect.Statement (i : Instr) : Prop :=
  (encode i).op =
    (match i with
     | .encbin _ => 0b00#2 ++ 0b0#1
     | .decbin _ => 0b00#2 ++ 0b1#1
     | .encoct _ => 0b01#2 ++ 0b0#1
     | .decoct _ => 0b01#2 ++ 0b1#1
     | .enchex _ => 0b10#2 ++ 0b0#1
     | .dechex _ => 0b10#2 ++ 0b1#1
     | .reserved6 => 0b11#2 ++ 0b0#1
     | .reserved7 => 0b11#2 ++ 0b1#1) ∧
  ((encode i).sPresent = true → (encode i).op.getLsbD 0 = true)

theorem OpSelect.encbin (n : Operand) : OpSelect.Statement (.encbin n) := ⟨rfl, by simp [encode, Request.ofInteger]⟩
theorem OpSelect.decbin (str : StringOperand) : OpSelect.Statement (.decbin str) := ⟨by simp [encode], by simp [encode]⟩
theorem OpSelect.encoct (n : Operand) : OpSelect.Statement (.encoct n) := ⟨rfl, by simp [encode, Request.ofInteger]⟩
theorem OpSelect.decoct (str : StringOperand) : OpSelect.Statement (.decoct str) := ⟨by simp [encode], by simp [encode]⟩
theorem OpSelect.enchex (n : Operand) : OpSelect.Statement (.enchex n) := ⟨rfl, by simp [encode, Request.ofInteger]⟩
theorem OpSelect.dechex (str : StringOperand) : OpSelect.Statement (.dechex str) := ⟨by simp [encode], by simp [encode]⟩
theorem OpSelect.reserved6 : OpSelect.Statement .reserved6 := ⟨rfl, by simp [encode]⟩
theorem OpSelect.reserved7 : OpSelect.Statement .reserved7 := ⟨rfl, by simp [encode]⟩

end Sys2Proof.Laws
end

