-- ==== Sys2Proof/Laws/Step.lean ====
section
/-! SUPPORT. What one step can do, said once. -/

namespace Sys2Proof.Machine

/-- An operation that is not reserved drives the response ports with a string, an integer or a failure, and nothing else;
a reserved one is refused. -/
theorem exec_cases (i : Instr) (s : State) :
    (i.reserved = false ∧
      ((∃ t, exec i s = .next (s.respond (.ofChars t))) ∨ (∃ v, exec i s = .next (s.respond (.ofSigned v))) ∨
       ∃ kind, exec i s = .next (s.respond (.failure kind)))) ∨
    (i.reserved = true ∧ ∃ op, exec i s = .refused (.reservedOp op)) := by
  cases i with
  | encbin n =>
    refine .inl ⟨rfl, ?_⟩
    rcases s.deliverChars_cases (encodeBinary32 (sint n)) with ⟨t, _, h⟩ | ⟨kind, _, h⟩
    · exact .inl ⟨t, congrArg _ h⟩
    · exact .inr (.inr ⟨kind, congrArg _ h⟩)
  | decbin str =>
    refine .inl ⟨rfl, .inr ?_⟩
    rcases s.deliverSigned_cases (decodeBinary32 str) with ⟨v, _, h⟩ | ⟨kind, _, h⟩
    · exact .inl ⟨v, congrArg _ h⟩
    · exact .inr ⟨kind, congrArg _ h⟩
  | encoct n =>
    refine .inl ⟨rfl, ?_⟩
    rcases s.deliverChars_cases (encodeOctal32 (sint n)) with ⟨t, _, h⟩ | ⟨kind, _, h⟩
    · exact .inl ⟨t, congrArg _ h⟩
    · exact .inr (.inr ⟨kind, congrArg _ h⟩)
  | decoct str =>
    refine .inl ⟨rfl, .inr ?_⟩
    rcases s.deliverSigned_cases (decodeOctal32 Config.octDecodePolicy str) with ⟨v, _, h⟩ | ⟨kind, _, h⟩
    · exact .inl ⟨v, congrArg _ h⟩
    · exact .inr ⟨kind, congrArg _ h⟩
  | enchex n =>
    refine .inl ⟨rfl, ?_⟩
    rcases s.deliverChars_cases (encodeHex32 (sint n)) with ⟨t, _, h⟩ | ⟨kind, _, h⟩
    · exact .inl ⟨t, congrArg _ h⟩
    · exact .inr (.inr ⟨kind, congrArg _ h⟩)
  | dechex str =>
    refine .inl ⟨rfl, .inr ?_⟩
    rcases s.deliverSigned_cases (decodeHex32 Config.hexDecodePolicy str) with ⟨v, _, h⟩ | ⟨kind, _, h⟩
    · exact .inl ⟨v, congrArg _ h⟩
    · exact .inr ⟨kind, congrArg _ h⟩
  | reserved6 => exact .inr ⟨rfl, _, rfl⟩
  | reserved7 => exact .inr ⟨rfl, _, rfl⟩

end Sys2Proof.Machine
end

