-- ==== Sys2Proof/Tests/Slice0.lean ====
section
/-! SUPPORT. The model's own tests: well-formedness, decoding of words written out from spec/30_encoding.md, one step on
vectors of spec/95_test_vectors.md, and for every statement with hypotheses concrete values that meet them. -/

namespace Sys2Proof.Tests

open Sys2Proof.Machine Sys2Proof.Safety Host

/-! ## Helpers -/

/-- Character codes from numbers. -/
def codes (l : List Nat) : List CharCode := l.map (BitVec.ofNat 8)

/-- The response of an outcome, when there is a next state. -/
def responseOf (o : Outcome State Fault Refusal) : Option Response :=
  match o with
  | .next t => some t.response
  | .fault _ => none
  | .refused _ => none

/-- Response ports left over from some earlier transaction. -/
def staleResponse : Response :=
  { status := 3, rInt := 0xDEADBEEF, rLen := 63, rChar := Vector.replicate 32 0xFF }

/-- A state with a given request and stale response ports. -/
def presenting (r : Request) : State := { request := r, response := staleResponse }

/-- A request with every ignored port at a value that would show if it were read. -/
def noisy (op : OpCode) (n : Operand) (present : Bool) (len : LenField) (cs : List CharCode) : Request :=
  { op := op, n := n, sPresent := present, sLen := len
    sChar := Vector.ofFn fun k => cs.getD k.val 0x5A }

/-- A 64-bit operand from an integer. -/
def int (v : Int) : Operand := BitVec.ofInt 64 v

/-! ## Well-formedness -/

theorem test_wellFormed_accepts_63_characters :
    (Instr.dechex (some (List.replicate 63 0x46#8))).wellFormed = true ∧ (Instr.decbin none).wellFormed = true ∧
    (Instr.encbin 0).wellFormed = true := by decide

theorem test_wellFormed_refuses_64_characters :
    (Instr.decbin (some (List.replicate 64 0x30#8))).wellFormed = false ∧
    (Instr.decoct (some (List.replicate 64 0x30#8))).wellFormed = false ∧
    (Instr.dechex (some (List.replicate 64 0x30#8))).wellFormed = false := by decide

theorem test_wellFormed_refuses_reserved_codes :
    Instr.reserved6.wellFormed = false ∧ Instr.reserved7.wellFormed = false := by decide

/-! ## Decoding, each request written port by port (R60 to R64; scripts P1 to P5) -/

theorem test_decode_encbin :
    decode (noisy 0b000 0xFFFFFFFFFFFFFF01 true 9 []) = .encbin 0xFFFFFFFFFFFFFF01 := by decide

theorem test_decode_decbin :
    decode (noisy 0b001 7 true 0b000011 (codes [0x31, 0x30, 0x31])) = .decbin (some (codes [0x31, 0x30, 0x31])) := by
  decide

theorem test_decode_encoct :
    decode (noisy 0b010 0x000000007FFFFFFF false 0 []) = .encoct 0x7FFFFFFF := by decide

theorem test_decode_decoct_null :
    decode (noisy 0b011 7 false 0b111111 (codes [0x31])) = .decoct none := by decide

theorem test_decode_decoct_empty :
    decode (noisy 0b011 7 true 0b000000 (codes [0x31])) = .decoct (some []) := by decide

theorem test_decode_enchex :
    decode (noisy 0b100 0x8000000000000000 true 1 []) = .enchex 0x8000000000000000 := by decide

theorem test_decode_dechex_full_port :
    decode (noisy 0b101 7 true 0b111111 []) = .dechex (some (List.replicate 63 0x5A#8)) := by decide

theorem test_decode_reserved6 : decode (noisy 0b110 7 true 3 []) = .reserved6 := by decide

theorem test_decode_reserved7 : decode (noisy 0b111 7 true 3 []) = .reserved7 := by decide

/-! ## One step, vectors of 95_test_vectors.md -/

/-- P1 line 1. -/
theorem test_encbin_minus255 :
    responseOf (step (presenting (noisy 0b000 0xFFFFFFFFFFFFFF01 true 3 []))) =
      some { status := 0, rInt := 0, rLen := 32
             rChar := slotsOf 32 (List.replicate 24 0x31#8 ++ List.replicate 7 0x30#8 ++ [0x31#8]) } := by decide

/-- P4 line 2. -/
theorem test_encbin_above_range :
    responseOf (step (presenting (noisy 0b000 0x0000000080000000 true 3 []))) =
      some { status := 3, rInt := 0, rLen := 0, rChar := Vector.replicate 32 0 } := by decide

/-- V-DB13. -/
theorem test_decbin_thirty_two_ones :
    responseOf (exec (.decbin (some (List.replicate 32 0x31#8))) State.reset) =
      some { status := 0, rInt := 0xFFFFFFFF, rLen := 0, rChar := Vector.replicate 32 0 } := by decide +kernel

/-- V-DB17 and V-DB18: length is checked before the alphabet. -/
theorem test_decbin_length_before_alphabet :
    (responseOf (exec (.decbin (some (List.replicate 32 0x30#8 ++ [0x32#8]))) State.reset)).map (·.status) = some 3 ∧
    (responseOf (exec (.decbin (some (List.replicate 31 0x30#8 ++ [0x32#8]))) State.reset)).map (·.status) = some 2 := by
  decide

/-- V-EO19, trace T3. -/
theorem test_encoct_minus255 :
    responseOf (exec (.encoct (int (-255))) State.reset) =
      some { status := 0, rInt := 0, rLen := 11
             rChar := slotsOf 32 (codes [0x33, 0x37, 0x37, 0x37, 0x37, 0x37, 0x37, 0x37, 0x34, 0x30, 0x31]) } := by
  decide

/-- V-EO27. -/
theorem test_encoct_305419896 :
    (responseOf (exec (.encoct (int 305419896)) State.reset)).map (·.rChar) =
      some (slotsOf 32 (codes [0x30, 0x32, 0x32, 0x31, 0x35, 0x30, 0x35, 0x33, 0x31, 0x37, 0x30])) := by decide

/-- V-DO17: 63 characters, no length check. -/
theorem test_decoct_sixty_three_characters :
    (responseOf (exec (.decoct (some (List.replicate 52 0x30#8 ++ 0x31#8 :: List.replicate 10 0x37#8))) State.reset)).map
      (·.rInt) = some 0x7FFFFFFF := by decide

/-- V-DO25 and V-DO13: the alphabet is checked before the value. -/
theorem test_decoct_alphabet_before_value :
    (responseOf (exec (.decoct (some (List.replicate 16 0x37#8 ++ [0x39#8]))) State.reset)).map (·.status) = some 2 ∧
    (responseOf (exec (.decoct (some (0x32#8 :: List.replicate 10 0x30#8))) State.reset)).map (·.status) = some 3 := by
  decide

/-- V-EH28. -/
theorem test_enchex_minus1985229329 :
    responseOf (exec (.enchex (int (-1985229329))) State.reset) =
      some { status := 0, rInt := 0, rLen := 8
             rChar := slotsOf 32 (codes [0x38, 0x39, 0x41, 0x42, 0x43, 0x44, 0x45, 0x46]) } := by decide

/-- V-EH30. -/
theorem test_enchex_below_range :
    (responseOf (exec (.enchex (int (-2147483649))) State.reset)).map (·.status) = some 3 := by decide

/-- V-DH17: mixed case. -/
theorem test_dechex_mixed_case :
    responseOf (exec (.dechex (some (codes [0x46, 0x66, 0x46, 0x66, 0x46, 0x66, 0x30, 0x31]))) State.reset) =
      some { status := 0, rInt := 0xFFFFFF01, rLen := 0, rChar := Vector.replicate 32 0 } := by decide +kernel

/-- V-DH23 and V-DH24. -/
theorem test_dechex_nine_characters :
    (responseOf (exec (.dechex (some (0x30#8 :: List.replicate 8 0x46#8))) State.reset)).map (·.rInt) = some 0xFFFFFFFF ∧
    (responseOf (exec (.dechex (some (0x31#8 :: List.replicate 8 0x30#8))) State.reset)).map (·.status) = some 3 := by
  decide

/-- R72. -/
theorem test_reserved6 (s : State) : exec .reserved6 s = .refused (.reservedOp 6) := rfl

/-- R72. -/
theorem test_reserved7 (s : State) : exec .reserved7 s = .refused (.reservedOp 7) := rfl

/-- A word put where the step reads its instruction runs first after reset; a null string is an InvalidArgument. -/
theorem test_withFetchWord_runs_dechex :
    (responseOf (step (State.reset.withFetchWord 8 5))).map (·.status) = some 1 := by decide

/-! ## The sub-blocks, vectors of 95_test_vectors.md section 4 -/

/-- V-TC4 (trace T2: a carry that propagates), V-TC1, V-TC9, and V-TC3 through the port form of R177. -/
theorem test_tcneg :
    tcneg 0x00000100 = 0xFFFFFF00 ∧ tcneg 0 = 0 ∧ tcneg 0x12345678 = 0xEDCBA988 ∧
    twosComplementConverter 0xFF false = 0xFFFFFF01 ∧ twosComplementConverter 0xFF true = 0xFF := by decide

/-- V-OV4 to V-OV7. -/
theorem test_ovf :
    ovf 2147483647 = false ∧ ovf 2147483648 = true ∧ ovf (-2147483648) = false ∧ ovf (-2147483649) = true := by decide

/-- V-CV8, V-CV10, V-CV12, V-CV16, V-CV19, V-CV21, V-CV26. -/
theorem test_charVal :
    charVal 0x32 .binary = none ∧ charVal 0x38 .octal = none ∧ charVal 0x38 .hex = some 8 ∧ charVal 0x3A .hex = none ∧
    charVal 0x47 .hex = none ∧ charVal 0x60 .hex = none ∧ charVal 0x66 .hex = some 15 ∧ charVal 0xFF .hex = none := by
  decide

/-! ## Concrete values that meet the hypotheses of each statement -/

theorem witness_DecodeEncodeAgree :
    (Instr.decbin (some (List.replicate 63 0xFF#8))).presentable = true ∧ (Instr.decoct (some [])).presentable = true ∧
    (Instr.dechex none).presentable = true ∧ (Instr.encbin (int (-1))).presentable = true ∧
    (Instr.encoct 0).presentable = true ∧ (Instr.enchex (int 1)).presentable = true ∧
    Instr.reserved6.presentable = true ∧ Instr.reserved7.presentable = true := by decide

theorem witness_EncodeDecodeKeepsUsedPorts :
    (noisy 0 1 true 9 []).op = 0#3 ∧ (noisy 2 1 true 9 []).op = 2#3 ∧ (noisy 4 1 true 9 []).op = 4#3 ∧
    (noisy 1 1 true 63 []).op = 1#3 ∧ (noisy 3 1 true 0 []).op = 3#3 ∧ (noisy 5 1 false 63 []).op = 5#3 ∧
    (noisy 6 1 true 9 []).op = 6#3 ∧ (noisy 7 1 true 9 []).op = 7#3 := by decide

/-- For StepLeavesPortsSettled, StepRunsTheDecodedInstruction and ChainingCopiesTheResultString: a step that answers a next
state, of the reset state and of a failing request (P4 line 2). -/
theorem witness_step_next :
    step State.reset = .next State.reset ∧
    step (presenting (noisy 0 0x80000000 false 0 [])) =
      .next (answered (presenting (noisy 0 0x80000000 false 0 [])) (failureAnswer 3#2)) ∧
    (answered (presenting (noisy 0 0x80000000 false 0 [])) (failureAnswer 3#2)).response.status ≠ 0b00#2 :=
  ⟨rfl, rfl, by decide⟩

theorem witness_StepRunsTheDecodedInstruction :
    decode State.reset.request = .encbin 0 ∧ decodeTableWord 8 5 = some (.dechex none) := by decide

theorem witness_SixOperationsAlwaysAnswer :
    (presenting (noisy 0 0 true 0 [])).request.op.toNat ≤ 5 ∧ (presenting (noisy 5 0 true 63 [])).request.op.toNat ≤ 5 := by
  decide

theorem witness_ReservedCodesAreRefused :
    (presenting (noisy 6 0 true 0 [])).request.op = 6#3 ∧ (presenting (noisy 7 0 true 0 [])).request.op = 7#3 := by decide

/-- The encode clause: same `op` and `n`, different string ports. -/
theorem witness_IgnoredPortsDoNotMatter_encode :
    let s := presenting (noisy 2 5 true 9 [0x31#8])
    let s' := { State.reset with request := noisy 2 5 false 0 [] }
    s'.request.op = s.request.op ∧ s.request.op = 2#3 ∧ s'.request.n = s.request.n ∧ s' ≠ s := by decide

/-- The decode clause, null strings. -/
theorem witness_IgnoredPortsDoNotMatter_null :
    let s := presenting (noisy 3 5 false 9 [0x31#8])
    let s' := presenting (noisy 3 6 false 0 [])
    s'.request.op = s.request.op ∧ s.request.op = 3#3 ∧ s.request.sPresent = false ∧ s'.request.sPresent = false ∧
    s' ≠ s := by decide

/-- The decode clause, strings equal in their one counted slot and different after it. -/
theorem witness_IgnoredPortsDoNotMatter_string :
    let s := presenting (noisy 5 5 true 1 [0x31#8, 0x32#8])
    let s' := presenting (noisy 5 6 true 1 [0x31#8])
    s'.request.op = s.request.op ∧ s.request.op = 5#3 ∧ s.request.sPresent = true ∧ s'.request.sPresent = true ∧
    s'.request.sLen = s.request.sLen ∧
    (∀ k : Fin 63, k.val < s.request.sLen.toNat → s'.request.sChar[k] = s.request.sChar[k]) ∧
    s'.request.sChar[1] ≠ s.request.sChar[1] := by decide

theorem witness_StepKeepsResponseLegal :
    LegalResponse State.reset.response ∧ step State.reset = .next State.reset :=
  ⟨by decide, rfl⟩

/-- The two other forms of a legal response. -/
theorem test_LegalResponse_forms : LegalResponse (failureAnswer 3#2) ∧ LegalResponse (integerAnswer 5#32) := by decide

/-- A failure that leaves a digit behind, and a string response with a lower-case letter, are not legal. -/
theorem test_LegalResponse_refuses :
    ¬ LegalResponse { failureAnswer 3#2 with rInt := 1#32 } ∧
    ¬ LegalResponse (stringAnswer (List.replicate 8 0x66#8)) := by decide

theorem witness_ResponsePortsByOutcome :
    (noisy 0 5 true 9 []).op = 0#3 ∧ (noisy 2 5 true 9 []).op = 2#3 ∧ (noisy 4 5 true 9 []).op = 4#3 ∧
    (noisy 1 5 true 9 []).op = 1#3 ∧ (noisy 3 5 true 9 []).op = 3#3 ∧ (noisy 5 5 true 9 []).op = 5#3 ∧
    (noisy 6 5 true 9 []).op = 6#3 ∧ (noisy 7 5 true 9 []).op = 7#3 := by decide

/-- For EncbinRendersThePattern, EncoctWritesElevenOctalDigits, OctalTopDigitHoldsTwoBits, EnchexWritesEightHexDigits,
EncoderStepsAgreeWithClosedForm, GroupersCutTheBinaryString and the three round trips: the two bounds, 0 and both signs
(the clauses on the sign are met by -1 and 0). -/
theorem witness_in_range_operand :
    inSigned32 (int (-2147483648)).toInt ∧ inSigned32 (int 2147483647).toInt ∧ inSigned32 (int 0).toInt ∧
    inSigned32 (int (-1)).toInt ∧ (int (-1)).toInt < 0 ∧ 0 ≤ (int 0).toInt ∧ inSigned32 (-2147483648) := by decide

theorem witness_EncodersRejectOutOfRange :
    ¬ inSigned32 (int 2147483648).toInt ∧ ¬ inSigned32 (int (-2147483649)).toInt ∧
    ¬ inSigned32 (int 9223372036854775807).toInt ∧ ¬ inSigned32 (int (-9223372036854775808)).toInt := by decide

/-- For DecbinValidatesThenWraps and the converse of BinaryRoundTrip: 33 characters; 32 with a bad one; 1 and 32 good ones. -/
theorem witness_DecbinValidatesThenWraps :
    32 < (List.replicate 33 0x30#8).length ∧
    ((List.replicate 31 0x30#8 ++ [0x32#8]).length ≤ 32 ∧ ∃ c ∈ List.replicate 31 0x30#8 ++ [0x32#8], ¬ binaryChar c) ∧
    (1 ≤ [0x30#8].length ∧ [0x30#8].length ≤ 32 ∧ ∀ c ∈ [0x30#8], binaryChar c) ∧
    (1 ≤ (List.replicate 32 0x31#8).length ∧ (List.replicate 32 0x31#8).length ≤ 32 ∧
      ∀ c ∈ List.replicate 32 0x31#8, binaryChar c) := by decide

/-- The two sides of the sign: 31 ones, and a one with 31 zeros. -/
theorem witness_DecbinSignIsTheFirstOf32 :
    (1 ≤ (List.replicate 31 0x31#8).length ∧ (List.replicate 31 0x31#8).length ≤ 32 ∧
      (∀ c ∈ List.replicate 31 0x31#8, binaryChar c) ∧ numeral 2 (List.replicate 31 0x31#8) ≤ 2147483647) ∧
    (1 ≤ (0x31#8 :: List.replicate 31 0x30#8).length ∧ (0x31#8 :: List.replicate 31 0x30#8).length ≤ 32 ∧
      (∀ c ∈ 0x31#8 :: List.replicate 31 0x30#8, binaryChar c) ∧
      2147483648 ≤ numeral 2 (0x31#8 :: List.replicate 31 0x30#8)) := by decide

/-- For DecoctValidatesThenReadsMagnitude, OctalPolicyChoosesTheReading and FailureTableIsExhaustive: `8`; `20000000000`; `17777777777`; and under WRAP `40000000000` and
`37777777777`. -/
theorem witness_octal_strings :
    (∃ c ∈ [0x38#8], ¬ octalChar c) ∧
    (0x32#8 :: List.replicate 10 0x30#8 ≠ [] ∧ (∀ c ∈ 0x32#8 :: List.replicate 10 0x30#8, octalChar c) ∧
      2147483647 < numeral 8 (0x32#8 :: List.replicate 10 0x30#8)) ∧
    (0x31#8 :: List.replicate 10 0x37#8 ≠ [] ∧ (∀ c ∈ 0x31#8 :: List.replicate 10 0x37#8, octalChar c) ∧
      numeral 8 (0x31#8 :: List.replicate 10 0x37#8) ≤ 2147483647) ∧
    ((∀ c ∈ 0x34#8 :: List.replicate 10 0x30#8, octalChar c) ∧
      4294967295 < numeral 8 (0x34#8 :: List.replicate 10 0x30#8)) ∧
    ((∀ c ∈ 0x33#8 :: List.replicate 10 0x37#8, octalChar c) ∧
      numeral 8 (0x33#8 :: List.replicate 10 0x37#8) ≤ 4294967295) := by decide

/-- For DechexValidatesThenWraps, HexPolicyChoosesTheReading, HexRoundTrip and FailureTableIsExhaustive: `G`; `100000000`; `ffFFFFFF`; and under MAGNITUDE `80000000` and `7FFFFFFF`. -/
theorem witness_hex_strings :
    (∃ c ∈ [0x47#8], ¬ hexChar c) ∧
    (0x31#8 :: List.replicate 8 0x30#8 ≠ [] ∧ (∀ c ∈ 0x31#8 :: List.replicate 8 0x30#8, hexChar c) ∧
      4294967295 < numeral 16 (0x31#8 :: List.replicate 8 0x30#8)) ∧
    (codes [0x66, 0x66, 0x46, 0x46, 0x46, 0x46, 0x46, 0x46] ≠ [] ∧
      (∀ c ∈ codes [0x66, 0x66, 0x46, 0x46, 0x46, 0x46, 0x46, 0x46], hexChar c) ∧
      numeral 16 (codes [0x66, 0x66, 0x46, 0x46, 0x46, 0x46, 0x46, 0x46]) ≤ 4294967295) ∧
    ((∀ c ∈ 0x38#8 :: List.replicate 7 0x30#8, hexChar c) ∧ 2147483647 < numeral 16 (0x38#8 :: List.replicate 7 0x30#8)) ∧
    ((∀ c ∈ 0x37#8 :: List.replicate 7 0x46#8, hexChar c) ∧
      numeral 16 (0x37#8 :: List.replicate 7 0x46#8) ≤ 2147483647 ∧ [0x46#8, 0x46#8].length < 8) := by decide

theorem witness_DecodeResultsAreSigned32 :
    decodeBinary32 (some (codes [0x31, 0x30, 0x31])) = .ok 5 ∧
    decodeOctal32 Config.octDecodePolicy (some (codes [0x31, 0x30])) = .ok 8 ∧
    decodeHex32 Config.hexDecodePolicy (some (codes [0x66, 0x46])) = .ok 255 := ⟨rfl, rfl, rfl⟩

theorem witness_LeadingZerosChangeNothing :
    [0x31#8] ≠ ([] : List CharCode) ∧ 31 + [0x31#8].length ≤ 32 := by decide

/-- `9aF` and `9Af`. -/
theorem witness_HexLetterCaseDoesNotMatter :
    (0 < 6 ∧ 5 < 6) ∧ List.Forall₂ (fun c d : CharCode => c = d ∨
      (0x41 ≤ c.toNat ∧ c.toNat ≤ 0x46 ∧ d.toNat = c.toNat + 0x20) ∨
      (0x61 ≤ c.toNat ∧ c.toNat ≤ 0x66 ∧ c.toNat = d.toNat + 0x20))
      (codes [0x39, 0x61, 0x46]) (codes [0x39, 0x41, 0x66]) :=
  ⟨by decide, .cons (by decide) (.cons (by decide) (.cons (by decide) .nil))⟩

theorem witness_ChainingCopiesTheResultString :
    (stringAnswer (List.replicate 32 0x31#8)).rLen.toNat ≤ 32 ∧ 31 < (stringAnswer (List.replicate 32 0x31#8)).rLen.toNat := by
  decide

/-- For TcnegIsTwosComplementNegation, TcsignedIsTheSignedReading and CharValInvertsDigitChar. -/
theorem witness_sub_block_values :
    (0x7FFFFFFF#32 ≠ 0x80000000#32) ∧ (4294967295 < 4294967296 ∧ inSigned32 2147483647) ∧
    charVal 0x66 .hex = some 15 ∧ (BitVec.ofNat 4 7).toNat < 8 ∧ (BitVec.ofNat 4 1).toNat < 2 := by decide

end Sys2Proof.Tests
end

section
/-! PROOFS for 30_encoding.md: the six operations always answer (R74), the response is a function of the ports that the
operation's format reads (R73), and decode results are Signed32 values (R68). -/

namespace Sys2Proof.Machine

open Sys2Proof.Safety

/-! ## What an operation answers does not depend on the state -/

/-- Delivering an encode result answers the same response in every state. -/
theorem deliverChars_answers (result : Except FailureKind (List CharCode)) :
    ∃ r, ∀ s : State, s.deliverChars result = answered s r := by
  cases result with
  | ok t => exact ⟨.ofChars t, fun _ => rfl⟩
  | error kind => exact ⟨.failure kind, fun _ => rfl⟩

/-- Delivering a decode result answers the same response in every state. -/
theorem deliverSigned_answers (result : Except FailureKind Int) :
    ∃ r, ∀ s : State, s.deliverSigned result = answered s r := by
  cases result with
  | ok v => exact ⟨.ofSigned v, fun _ => rfl⟩
  | error kind => exact ⟨.failure kind, fun _ => rfl⟩

/-- An operation that is not reserved has one response, whatever state it runs in. -/
theorem exec_answers (i : Instr) (hi : i.reserved = false) :
    ∃ r, ∀ s, exec i s = .next (answered s r) := by
  cases i with
  | encbin n => exact (deliverChars_answers (encodeBinary32 (sint n))).imp fun _ h s => congrArg _ (h s)
  | encoct n => exact (deliverChars_answers (encodeOctal32 (sint n))).imp fun _ h s => congrArg _ (h s)
  | enchex n => exact (deliverChars_answers (encodeHex32 (sint n))).imp fun _ h s => congrArg _ (h s)
  | decbin str => exact (deliverSigned_answers (decodeBinary32 str)).imp fun _ h s => congrArg _ (h s)
  | decoct str =>
    exact (deliverSigned_answers (decodeOctal32 Config.octDecodePolicy str)).imp fun _ h s => congrArg _ (h s)
  | dechex str =>
    exact (deliverSigned_answers (decodeHex32 Config.hexDecodePolicy str)).imp fun _ h s => congrArg _ (h s)
  | reserved6 => cases hi
  | reserved7 => cases hi

/-- The `op` codes 0 to 5 decode to operations that are not reserved. -/
theorem decode_not_reserved (r : Request) (h : r.op.toNat ≤ 5) : (decode r).reserved = false := by
  unfold decode
  split_ifs with h0 h1 h2 h3 h4 h5 h6
  any_goals rfl
  · simp [h6] at h
  · bv_omega

/-- Two steps on requests that decode to one operation of the six answer the same response. -/
theorem step_answers_of_decode_eq (s s' : State) (hop : s.request.op.toNat ≤ 5)
    (h : decode s'.request = decode s.request) :
    ∃ r, step s = .next (answered s r) ∧ step s' = .next (answered s' r) := by
  obtain ⟨r, hr⟩ := exec_answers _ (decode_not_reserved _ hop)
  exact ⟨r, hr s, (congrArg (exec · s') h).trans (hr s')⟩

/-- Settles O5: the response of the decoded operation. -/
theorem sixOperationsAlwaysAnswer : Obligations.SixOperationsAlwaysAnswer := by
  intro s hop
  obtain ⟨r, hr, _⟩ := step_answers_of_decode_eq s s hop rfl
  exact ⟨r, hr⟩

/-! ## Which ports the decoder reads -/

/-- Of a request of format ENC the decoder reads `op` and `n` alone. -/
theorem decode_congr_of_encode_op {r r' : Request} (hfmt : r.op = 0#3 ∨ r.op = 2#3 ∨ r.op = 4#3)
    (hop : r'.op = r.op) (hn : r'.n = r.n) : decode r' = decode r := by
  rcases hfmt with h | h | h <;> simp [decode, hop, hn, h]

/-- Of a request of format DEC the decoder reads `op` and the string operand alone. -/
theorem decode_congr_of_decode_op {r r' : Request} (hfmt : r.op = 1#3 ∨ r.op = 3#3 ∨ r.op = 5#3)
    (hop : r'.op = r.op) (hstr : r'.stringOperand = r.stringOperand) : decode r' = decode r := by
  rcases hfmt with h | h | h <;> simp [decode, hop, hstr, h]

/-- A null string, whatever is on the length and character ports. -/
theorem stringOperand_of_absent {r : Request} (h : r.sPresent = false) : r.stringOperand = none := by
  simp [Request.stringOperand, h]

/-- A string that is present is read from its counted slots alone. -/
theorem stringOperand_congr_of_present {r r' : Request} (h : r.sPresent = true) (h' : r'.sPresent = true)
    (hlen : r'.sLen = r.sLen) (hchar : ∀ k : Fin 63, k.val < r.sLen.toNat → r'.sChar[k] = r.sChar[k]) :
    r'.stringOperand = r.stringOperand := by
  have htake : r'.sChar.toList.take r.sLen.toNat = r.sChar.toList.take r.sLen.toNat := by
    apply List.ext_getElem
    · simp
    · intro k hk _
      have hk : k < r.sLen.toNat ∧ k < 63 := by simpa using hk
      simpa using hchar ⟨k, hk.2⟩ hk.1
  simp [Request.stringOperand, h, h', hlen, htake]

/-- Settles O7: both requests decode to the same operation, so they have its one response. -/
theorem ignoredPortsDoNotMatter : Obligations.IgnoredPortsDoNotMatter := by
  intro s s' hop
  refine ⟨fun hfmt hn => ?_, fun hfmt hstr => ?_⟩
  · have hle : s.request.op.toNat ≤ 5 := by rcases hfmt with h | h | h <;> simp [h]
    exact step_answers_of_decode_eq s s' hle (decode_congr_of_encode_op hfmt hop hn)
  · have hle : s.request.op.toNat ≤ 5 := by rcases hfmt with h | h | h <;> simp [h]
    refine step_answers_of_decode_eq s s' hle (decode_congr_of_decode_op hfmt hop ?_)
    rcases hstr with ⟨habs, habs'⟩ | ⟨hpres, hpres', hlen, hchar⟩
    · rw [stringOperand_of_absent habs, stringOperand_of_absent habs']
    · exact stringOperand_congr_of_present hpres hpres' hlen hchar

/-! ## The range of decode results -/

/-- `TCSIGNED` of a 32-bit value is in the Signed32 range. -/
theorem tcsigned_inSigned32 {u : Nat} (h : u ≤ 4294967295) : inSigned32 (tcsigned u) := by
  unfold tcsigned
  split <;> constructor <;> omega

/-- Either decode policy returns a value of the Signed32 range or fails. -/
theorem inSigned32_of_signedUnderPolicy {policy : DecodePolicy} {u : Nat} {v : Int}
    (h : signedUnderPolicy policy u = .ok v) : inSigned32 v := by
  cases policy with
  | magnitude =>
    rw [signedUnderPolicy_magnitude] at h
    split at h
    · cases h
    · cases h; constructor <;> omega
  | wrap =>
    rw [signedUnderPolicy_wrap] at h
    split at h
    · cases h
    · cases h; exact tcsigned_inSigned32 (by omega)

/-- A binary decode returns the signed reading of 32 bits. -/
theorem inSigned32_of_decodeBinary32 {str : StringOperand} {v : Int} (h : decodeBinary32 str = .ok v) :
    inSigned32 v := by
  unfold decodeBinary32 at h
  split at h
  · cases h
  · split at h
    · cases h
    · cases h; exact tcsigned_inSigned32 (by omega)

/-- An octal decode returns what its policy makes of the string's value. -/
theorem inSigned32_of_decodeOctal32 {policy : DecodePolicy} {str : StringOperand} {v : Int}
    (h : decodeOctal32 policy str = .ok v) : inSigned32 v := by
  unfold decodeOctal32 at h
  split at h
  · cases h
  · exact inSigned32_of_signedUnderPolicy h

/-- A hexadecimal decode returns what its policy makes of the string's value. -/
theorem inSigned32_of_decodeHex32 {policy : DecodePolicy} {str : StringOperand} {v : Int}
    (h : decodeHex32 policy str = .ok v) : inSigned32 v := by
  unfold decodeHex32 at h
  split at h
  · cases h
  · exact inSigned32_of_signedUnderPolicy h

/-- A decode result is driven as row 2 of the response table (R77). -/
theorem ofSigned_eq_integerAnswer (v : Int) : Response.ofSigned v = integerAnswer (BitVec.ofInt 32 v) := by
  simp [Response.ofSigned, integerAnswer, statusOk, slotsOf_nil]

/-- A delivered Signed32 result is carried on `r_int` in two's complement. -/
theorem deliverSigned_inSigned32 {result : Except FailureKind Int} {v : Int} (s : State) (hok : result = .ok v)
    (hv : inSigned32 v) : ∃ w : Word32, w.toInt = v ∧
      (.next (s.deliverSigned result) : Host.Outcome State Fault Refusal) = .next (answered s (integerAnswer w)) := by
  obtain ⟨hmin, hmax⟩ := hv
  refine ⟨BitVec.ofInt 32 v, BitVec.toInt_ofInt_eq_self (by decide) (by omega) (by omega), ?_⟩
  rw [hok, State.deliverSigned_ok, ofSigned_eq_integerAnswer]
  rfl

/-- Settles O28: the range of each decode operation's result, and its delivery. -/
theorem decodeResultsAreSigned32 : Obligations.DecodeResultsAreSigned32 := by
  intro str s v
  refine ⟨fun hbin => ?_, fun hoct => ?_, fun hhex => ?_⟩
  · have hv := inSigned32_of_decodeBinary32 hbin
    exact ⟨hv, deliverSigned_inSigned32 s hbin hv⟩
  · have hv := inSigned32_of_decodeOctal32 hoct
    exact ⟨hv, deliverSigned_inSigned32 s hoct hv⟩
  · have hv := inSigned32_of_decodeHex32 hhex
    exact ⟨hv, deliverSigned_inSigned32 s hhex hv⟩

end Sys2Proof.Machine
end

section
/-! PROOFS for 41_binary.md: ENCBIN writes the 32-bit pattern of its operand (R104), DECBIN validates and wraps (R110,
R111, R113), and the two undo each other through the ports (R117). What holds of strings in any base, and of the vector
that the groupers of 42_octal.md and 43_hex.md read too, comes first. -/

namespace Sys2Proof.Machine

open Sys2Proof.Safety

/-! ## Digit strings and the numbers they write, in any base -/

/-- A further character on the right multiplies by the base and adds its digit. -/
@[simp] theorem numeral_concat (radix : Nat) (cs : List CharCode) (c : CharCode) :
    numeral radix (cs ++ [c]) = radix * numeral radix cs + digit c := by
  simp [numeral]

/-- The statements' numeral is the decoder's value of the digits (30_encoding.md rule R69). -/
theorem numeral_eq_valueOf (radix : Nat) (cs : List CharCode) :
    numeral radix cs = valueOf radix (cs.map digit) := by
  induction cs using List.reverseRecOn with
  | nil => rfl
  | append_singleton cs c ih => simp [ih, valueOf_append, valueOf, Nat.mul_comm]

/-- The first character's digit has the weight of all the characters after it. -/
theorem numeral_cons (radix : Nat) (c : CharCode) (cs : List CharCode) :
    numeral radix (c :: cs) = digit c * radix ^ cs.length + numeral radix cs := by
  simp [numeral_eq_valueOf, valueOf]

/-- `L` digits below the base write a number below `base^L`. -/
theorem numeral_lt_pow {radix : Nat} {cs : List CharCode} (h : ∀ c ∈ cs, digit c < radix) :
    numeral radix cs < radix ^ cs.length := by
  rw [numeral_eq_valueOf]
  simpa using valueOf_lt radix (cs.map digit) (by simpa using h)

/-- Zeros on the left add nothing. -/
theorem numeral_replicate_zero_append (radix k : Nat) (cs : List CharCode) :
    numeral radix (List.replicate k 0x30#8 ++ cs) = numeral radix cs := by
  induction k with
  | zero => rfl
  | succ k ih => simp [List.replicate_succ, numeral_cons, ih, digit]

/-- The character of a digit stands for that digit. -/
theorem digit_digitCode {d : Nat} (h : d < 16) : digit (digitCode d) = d := by
  interval_cases d <;> rfl

/-- A padded numeral gives one character per place. -/
@[simp] theorem paddedNumeral_length (radix count u : Nat) : (paddedNumeral radix count u).length = count := by
  simp [paddedNumeral]

/-- The last digit of a padded numeral is the remainder by the base, and the digits before it write the quotient. -/
theorem paddedNumeral_succ (radix count u : Nat) :
    paddedNumeral radix (count + 1) u = paddedNumeral radix count (u / radix) ++ [digitCode (u % radix)] := by
  simp only [paddedNumeral, List.range_succ, List.map_append, List.map_cons, List.map_nil]
  congr 1
  · refine List.map_congr_left fun k hk => ?_
    have hk : k < count := List.mem_range.1 hk
    have hplace : count + 1 - 1 - k = (count - 1 - k) + 1 := by omega
    rw [hplace, pow_succ', ← Nat.div_div_eq_div_mul]
  · simp

/-- A padded numeral of `count` places writes the number modulo `radix^count`. -/
theorem numeral_paddedNumeral {radix : Nat} (hpos : 0 < radix) (hle : radix ≤ 16) (count u : Nat) :
    numeral radix (paddedNumeral radix count u) = u % radix ^ count := by
  induction count generalizing u with
  | zero => simp [paddedNumeral, numeral, Nat.mod_one]
  | succ count ih =>
    have hdigit : u % radix < 16 := (Nat.mod_lt u hpos).trans_le hle
    rw [paddedNumeral_succ, numeral_concat, ih, digit_digitCode hdigit, pow_succ', Nat.mod_mul, Nat.add_comm]

/-- A string of digits that are written in their own characters is the padded numeral of the number it writes. -/
theorem paddedNumeral_numeral {radix : Nat} {cs : List CharCode}
    (h : ∀ c ∈ cs, digit c < radix ∧ digitCode (digit c) = c) :
    paddedNumeral radix cs.length (numeral radix cs) = cs := by
  induction cs using List.reverseRecOn with
  | nil => rfl
  | append_singleton cs c ih =>
    obtain ⟨hlt, hchar⟩ := h c (by simp)
    have hquot : (radix * numeral radix cs + digit c) / radix = numeral radix cs := by
      rw [Nat.mul_add_div (by omega), Nat.div_eq_of_lt hlt, Nat.add_zero]
    have hrem : (radix * numeral radix cs + digit c) % radix = digit c := by
      rw [Nat.mul_add_mod, Nat.mod_eq_of_lt hlt]
    rw [List.length_append, List.length_singleton, paddedNumeral_succ, numeral_concat, hquot, hrem, hchar,
      ih fun x hx => h x (by simp [hx])]

/-! ## Reading a string operand, in any base -/

/-- A string whose characters all have their digit in the base is read as the number it writes. -/
theorem parseString_of_forall_charVal {b : Base} {cs : List CharCode} (hne : cs ≠ [])
    (h : ∀ c ∈ cs, charVal c b = some (digit c)) : parseString b (some cs) = .ok (numeral b.radix cs) := by
  have hdigits : digitsOf b cs = some (cs.map digit) := by
    rw [digitsOf_eq_some_iff, List.forall₂_map_right_iff, List.forall₂_same]
    exact h
  rw [parseString_some b cs hne, parseDigits, hdigits, numeral_eq_valueOf]

/-- A string with a character outside the alphabet of the base is a FormatError. -/
theorem parseString_of_exists_charVal_none {b : Base} {cs : List CharCode} (h : ∃ c ∈ cs, charVal c b = none) :
    parseString b (some cs) = .error .formatError := by
  have hne : cs ≠ [] := by
    rintro rfl
    simp at h
  rw [parseString_some b cs hne, parseDigits, (digitsOf_eq_none_iff b cs).2 h]

/-- `TCSIGNED` reads a 32-bit value as two's complement (44_helpers.md rule R175). -/
theorem tcsigned_eq_toInt_ofNat {u : Nat} (h : u < 4294967296) : tcsigned u = (BitVec.ofNat 32 u).toInt := by
  rw [BitVec.toInt_eq_toNat_cond, BitVec.toNat_ofNat, Nat.mod_eq_of_lt h, tcsigned]
  split <;> split <;> omega

/-! ## What is driven on the response ports -/

/-- An encode result is driven as row 1 of the response table (R77). -/
theorem ofChars_eq_stringAnswer (t : List CharCode) : Response.ofChars t = stringAnswer t := rfl

/-- A failure is driven as row 3 of the response table (R77). -/
theorem failure_eq_failureAnswer (kind : FailureKind) : Response.failure kind = failureAnswer (statusOf kind) := by
  simp [Response.failure, failureAnswer, slotsOf_nil]

/-! ## The encoder's vector, which all three encode operations read -/

/-- The filled vector is the magnitude in 32 bits (41_binary.md rule R103). -/
theorem magnitudeBits_eq_ofNat (m : Nat) : magnitudeBits m = BitVec.ofNat 32 m := by
  apply BitVec.eq_of_getLsbD_eq
  intro j _
  rw [magnitudeBits, getLsbD_fillBits 32 0 m 0 rfl j]
  simp [BitVec.getLsbD_ofNat]

/-- Inverting every bit and adding one is negation (44_helpers.md rule R172). -/
theorem tcneg_eq_neg (bv : Word32) : tcneg bv = -bv := by
  rw [tcneg, addCarry_eq_add 32 0 true _ rfl, BitVec.neg_eq_not_add]
  rfl

/-- The vector after the negation is the operand in 32-bit two's complement. -/
theorem encoderVector_eq_ofInt (n : Int) : encoderVector n = BitVec.ofInt 32 n := by
  rw [encoderVector, magnitudeBits_eq_ofNat, ← BitVec.ofInt_natCast]
  split
  case isTrue hneg =>
    simp only [twosComplementConverter, Bool.false_eq_true, if_false, tcneg_eq_neg, ← BitVec.ofInt_neg]
    congr 1
    omega
  case isFalse hnonneg =>
    congr 1
    omega

/-- The 32-bit pattern of an integer, read as an unsigned number. -/
theorem toNat_ofInt_eq_unsigned32 (v : Int) : (BitVec.ofInt 32 v).toNat = unsigned32 v := by
  simp [unsigned32]

/-- A Signed32 value is the signed reading of its 32-bit pattern. -/
theorem toInt_ofInt_of_inSigned32 {v : Int} (h : inSigned32 v) : (BitVec.ofInt 32 v).toInt = v := by
  obtain ⟨hmin, hmax⟩ := h
  exact BitVec.toInt_ofInt_eq_self (by decide) (by omega) (by omega)

/-- `OVF` is 0 in the Signed32 range (44_helpers.md rule R180). -/
theorem ovf_of_inSigned32 {v : Int} (h : inSigned32 v) : ovf v = false := by
  have hbounds : ¬ (v < int32Min ∨ int32Max < v) := by
    simp only [int32Min, int32Max]
    omega
  simpa [ovf] using hbounds

/-! ## ENCBIN -/

/-- The characters of a vector, bit 31 first (20_memory.md rule R42). -/
def bitString (bv : Word32) : List CharCode :=
  (List.range 32).map fun k => if bv.getLsbD (31 - k) then 0x31#8 else 0x30#8

/-- Rendering the bits of a vector as digits writes its characters. -/
theorem render_bitValue (bv : Word32) : render (bitValue bv) 32 = bitString bv := by
  rw [render_eq_map]
  refine List.map_congr_left fun k _ => ?_
  show digitChar (if bv.getLsbD (31 - k) then 1 else 0) = _
  split <;> rfl

/-- The characters of a vector are the base-2 numeral of its unsigned reading. -/
theorem bitString_eq_paddedNumeral (bv : Word32) : bitString bv = paddedNumeral 2 32 bv.toNat := by
  refine List.map_congr_left fun k _ => ?_
  rw [← BitVec.testBit_toNat, Nat.testBit_eq_decide_div_mod_eq]
  rcases Nat.mod_two_eq_zero_or_one (bv.toNat / 2 ^ (31 - k)) with h | h <;> simp [h, digitCode]

/-- The characters of a vector write its unsigned reading. -/
theorem numeral_bitString (bv : Word32) : numeral 2 (bitString bv) = bv.toNat := by
  rw [bitString_eq_paddedNumeral, numeral_paddedNumeral (by decide) (by decide), Nat.mod_eq_of_lt bv.isLt]

@[simp] theorem bitString_length (bv : Word32) : (bitString bv).length = 32 := by
  simp [bitString]

/-- A vector's characters are `0` and `1`. -/
theorem binaryChar_of_mem_bitString {bv : Word32} {c : CharCode} (h : c ∈ bitString bv) : binaryChar c := by
  obtain ⟨k, -, rfl⟩ := List.mem_map.1 h
  split
  · exact .inr rfl
  · exact .inl rfl

/-- The steps of ENCBIN write the pattern of every Signed32 value; the strings that its first two steps return for 0 and
`INT32_MIN` are those of their patterns (41_binary.md rule R102). -/
theorem encodeBinary32_of_inSigned32 {n : Int} (h : inSigned32 n) :
    encodeBinary32 n = .ok (bitString (BitVec.ofInt 32 n)) := by
  unfold encodeBinary32
  split_ifs with hzero hmin hovf
  · subst hzero; rfl
  · subst hmin; rfl
  · simp [ovf_of_inSigned32 h] at hovf
  · rw [encoderVector_eq_ofInt, render_bitValue]

/-- What ENCBIN answers for an in-range operand. -/
theorem exec_encbin_of_inSigned32 {n : Operand} (s : State) (h : inSigned32 n.toInt) :
    exec (.encbin n) s = .next (answered s (stringAnswer (bitString (BitVec.ofInt 32 n.toInt)))) := by
  show Host.Outcome.next (s.deliverChars (encodeBinary32 n.toInt)) = _
  rw [encodeBinary32_of_inSigned32 h, State.deliverChars_ok, ofChars_eq_stringAnswer]
  rfl

/-- Settles O14: the operand's 32-bit pattern, whose two readings differ by `2^32` when bit 31 is set. -/
theorem encbinRendersThePattern : Obligations.EncbinRendersThePattern := by
  intro n s h
  have hsigned := toInt_ofInt_of_inSigned32 h
  have hreadings := BitVec.toInt_eq_toNat_cond (BitVec.ofInt 32 n.toInt)
  rw [hsigned] at hreadings
  refine ⟨BitVec.ofInt 32 n.toInt, exec_encbin_of_inSigned32 s h, ?_, hsigned, fun hnonneg => ?_, fun hneg => ?_⟩
  · rw [← toNat_ofInt_eq_unsigned32, BitVec.ofNat_toNat, BitVec.setWidth_eq]
  · split at hreadings <;> omega
  · refine ⟨by split at hreadings <;> omega, ?_⟩
    have hmsb : (BitVec.ofInt 32 n.toInt).msb = true := by
      rw [BitVec.msb_eq_toInt, hsigned]
      exact decide_eq_true hneg
    rwa [BitVec.msb_eq_getLsbD_last] at hmsb

/-! ## DECBIN -/

/-- `CHARVAL` on the binary alphabet: the digit. -/
theorem charVal_of_binaryChar {c : CharCode} (h : binaryChar c) : charVal c .binary = some (digit c) := by
  rcases h with rfl | rfl <;> rfl

/-- `CHARVAL` outside the binary alphabet: undefined. -/
theorem charVal_of_not_binaryChar {c : CharCode} (h : ¬ binaryChar c) : charVal c .binary = none := by
  by_contra hsome
  obtain ⟨v, hv⟩ := Option.ne_none_iff_exists'.1 hsome
  obtain ⟨hdigit, hlt⟩ := (charVal_eq_some_iff_charDigit c .binary v).1 hv
  replace hlt : v < 2 := hlt
  apply h
  show c = 0x30#8 ∨ c = 0x31#8
  unfold charDigit at hdigit
  split_ifs at hdigit <;> injection hdigit <;> bv_omega

/-- The digits of the binary alphabet are below 2 and written in their own characters. -/
theorem digit_of_binaryChar {c : CharCode} (h : binaryChar c) : digit c < 2 ∧ digitCode (digit c) = c := by
  rcases h with rfl | rfl <;> decide

/-- At most 32 characters of `0` and `1` write a 32-bit value. -/
theorem numeral_two_lt_of_length_le {cs : List CharCode} (hlen : cs.length ≤ 32) (h : ∀ c ∈ cs, binaryChar c) :
    numeral 2 cs < 4294967296 :=
  calc numeral 2 cs < 2 ^ cs.length := numeral_lt_pow fun c hc => (digit_of_binaryChar (h c hc)).1
    _ ≤ 2 ^ 32 := Nat.pow_le_pow_right (by decide) hlen

/-- A string of more than 32 characters is an OverflowError, whatever its characters are (41_binary.md rule R111). -/
theorem decodeBinary32_of_length_gt {cs : List CharCode} (h : 32 < cs.length) :
    decodeBinary32 (some cs) = .error .overflowError := by
  simp [decodeBinary32, longerThan, h]

/-- A string of at most 32 characters is validated as in the other bases, and its value is 32 bits. -/
theorem decodeBinary32_of_length_le {cs : List CharCode} (h : cs.length ≤ 32) :
    decodeBinary32 (some cs) = (parseString .binary (some cs)).map fun acc => tcsigned (acc % 4294967296) := by
  have hshort : ¬ 32 < cs.length := by omega
  simp only [decodeBinary32, longerThan, hshort, decide_false, Bool.false_eq_true, if_false]
  cases parseString .binary (some cs) <;> rfl

/-- A string with a character other than `0` and `1` is a FormatError when it is not too long. -/
theorem decodeBinary32_of_bad_char {cs : List CharCode} (hlen : cs.length ≤ 32) (h : ∃ c ∈ cs, ¬ binaryChar c) :
    decodeBinary32 (some cs) = .error .formatError := by
  obtain ⟨c, hmem, hbad⟩ := h
  rw [decodeBinary32_of_length_le hlen,
    parseString_of_exists_charVal_none ⟨c, hmem, charVal_of_not_binaryChar hbad⟩]
  rfl

/-- A valid string returns the signed reading of its value (41_binary.md rule R113). -/
theorem decodeBinary32_of_binaryChars {cs : List CharCode} (hne : cs ≠ []) (hlen : cs.length ≤ 32)
    (h : ∀ c ∈ cs, binaryChar c) : decodeBinary32 (some cs) = .ok (BitVec.ofNat 32 (numeral 2 cs)).toInt := by
  have hlt := numeral_two_lt_of_length_le hlen h
  rw [decodeBinary32_of_length_le hlen,
    parseString_of_forall_charVal hne fun c hc => charVal_of_binaryChar (h c hc), ← tcsigned_eq_toInt_ofNat hlt]
  exact congrArg (fun u => Except.ok (tcsigned u)) (Nat.mod_eq_of_lt hlt)

/-- What DECBIN answers when it fails. -/
theorem exec_decbin_of_error {str : StringOperand} {kind : FailureKind} (s : State)
    (h : decodeBinary32 str = .error kind) :
    exec (.decbin str) s = .next (answered s (failureAnswer (statusOf kind))) := by
  show Host.Outcome.next (s.deliverSigned (decodeBinary32 str)) = _
  rw [h, State.deliverSigned_error, ← failure_eq_failureAnswer]
  rfl

/-- What DECBIN answers for a valid string. -/
theorem exec_decbin_of_binaryChars {cs : List CharCode} (s : State) (hne : cs ≠ []) (hlen : cs.length ≤ 32)
    (h : ∀ c ∈ cs, binaryChar c) :
    exec (.decbin (some cs)) s = .next (answered s (integerAnswer (BitVec.ofNat 32 (numeral 2 cs)))) := by
  show Host.Outcome.next (s.deliverSigned (decodeBinary32 (some cs))) = _
  rw [decodeBinary32_of_binaryChars hne hlen h, State.deliverSigned_ok, ofSigned_eq_integerAnswer,
    BitVec.ofInt_toInt]
  rfl

/-- Settles O22: one clause per outcome of the checks, in their order. -/
theorem decbinValidatesThenWraps : Obligations.DecbinValidatesThenWraps := by
  intro s
  refine ⟨fun cs hlong => ?_, ?_, ?_, fun cs hlen hbad => ?_, fun cs hpos hlen hgood => ⟨?_, ?_⟩⟩
  · exact exec_decbin_of_error s (decodeBinary32_of_length_gt hlong)
  · exact exec_decbin_of_error s (kind := .invalidArgument) rfl
  · exact exec_decbin_of_error s (kind := .invalidArgument) rfl
  · exact exec_decbin_of_error s (decodeBinary32_of_bad_char hlen hbad)
  · exact Nat.le_of_lt_succ (numeral_two_lt_of_length_le hlen hgood)
  · exact exec_decbin_of_binaryChars s (List.length_pos_iff.1 hpos) hlen hgood

/-- The value reaches `2^31` exactly when there are 32 characters and the first is `1`. -/
theorem numeral_two_ge_iff_head {cs : List CharCode} (hlen : cs.length ≤ 32) (h : ∀ c ∈ cs, binaryChar c) :
    2147483648 ≤ numeral 2 cs ↔ cs.length = 32 ∧ cs.head? = some 0x31#8 := by
  cases cs with
  | nil => simp [numeral]
  | cons c cs =>
    have htail : ∀ x ∈ cs, digit x < 2 := fun x hx => (digit_of_binaryChar (h x (by simp [hx]))).1
    have hrest := numeral_lt_pow htail
    have hlen : cs.length ≤ 31 := Nat.le_of_succ_le_succ hlen
    have hpow : 2 ^ cs.length ≤ 2 ^ 31 := Nat.pow_le_pow_right (by decide) hlen
    rcases h c (by simp) with rfl | rfl
    · have hsmall : numeral 2 (0x30#8 :: cs) < 2147483648 := by
        rw [numeral_cons, show digit 0x30#8 = 0 from rfl]
        omega
      exact iff_of_false (by omega) (by simp)
    · rw [numeral_cons, show digit 0x31#8 = 1 from rfl, one_mul]
      by_cases hfull : cs.length = 31
      · exact iff_of_true (by rw [hfull]; omega) (by simp [hfull])
      · have hpow : 2 ^ cs.length ≤ 2 ^ 30 := Nat.pow_le_pow_right (by decide) (by omega)
        exact iff_of_false (by omega) (by simp [hfull])

/-- Settles O23: the signed reading is negative exactly when the value reaches `2^31`. -/
theorem decbinSignIsTheFirstOf32 : Obligations.DecbinSignIsTheFirstOf32 := by
  intro cs s hpos hlen hgood
  have hlt := numeral_two_lt_of_length_le hlen hgood
  refine ⟨_, exec_decbin_of_binaryChars s (List.length_pos_iff.1 hpos) hlen hgood, ?_⟩
  rw [← numeral_two_ge_iff_head hlen hgood, ← tcsigned_eq_toInt_ofNat hlt, tcsigned]
  split <;> omega

/-! ## The round trip through the ports -/

/-- A request whose `op` is 0 runs ENCBIN of its integer port. -/
theorem step_of_op_encbin {s : State} (h : s.request.op = 0#3) : step s = exec (.encbin s.request.n) s := by
  simp [step, decode, h]

/-- A request whose `op` is 1 runs DECBIN of its string ports. -/
theorem step_of_op_decbin {s : State} (h : s.request.op = 1#3) :
    step s = exec (.decbin s.request.stringOperand) s := by
  simp [step, decode, h]

/-- The string ports present the string that was put on them (30_encoding.md rule R64). -/
theorem stringOperand_ofString (op : OpCode) {cs : List CharCode} (h : cs.length ≤ 63) :
    (Request.ofString op (some cs)).stringOperand = some cs := by
  have hlen : (BitVec.ofNat 6 cs.length).toNat = cs.length := by
    rw [BitVec.toNat_ofNat]
    exact Nat.mod_eq_of_lt (by omega)
  simp only [Request.stringOperand, Request.ofString_sPresent, Request.ofString_sLen, Request.ofString_sChar, hlen,
    take_slotsOf cs 63 h, if_true]

/-- The caller's copy of an encode result presents the result string (70_reset_and_hazards.md rule R245). -/
theorem chainString_stringAnswer (op : OpCode) {t : List CharCode} (h : t.length ≤ 32) :
    (stringAnswer t).chainString op = .ofString op (some t) := by
  have hlen : (stringAnswer t).rLen.toNat = t.length := by
    show (BitVec.ofNat 6 t.length).toNat = t.length
    rw [BitVec.toNat_ofNat]
    exact Nat.mod_eq_of_lt (by omega)
  have hchars : (stringAnswer t).rChar.toList.take t.length = t := take_slotsOf t 32 h
  rw [Response.chainString, hlen, hchars]
  rfl

/-- The sign-extended copy of a 32-bit result is in range and keeps its signed reading (30_encoding.md rule R67). -/
theorem toInt_signExtend_word (v : Word32) :
    (v.signExtend 64).toInt = v.toInt ∧ inSigned32 (v.signExtend 64).toInt := by
  have hkeep : (v.signExtend 64).toInt = v.toInt := BitVec.toInt_signExtend_of_le (by decide)
  have hmin := BitVec.le_toInt v
  have hmax := BitVec.toInt_lt (x := v)
  refine ⟨hkeep, ?_⟩
  rw [hkeep]
  constructor <;> omega

/-- The pattern of a valid string's value is the string padded on the left with `0` to 32 characters. -/
theorem bitString_ofNat_numeral {cs : List CharCode} (hlen : cs.length ≤ 32) (h : ∀ c ∈ cs, binaryChar c) :
    bitString (BitVec.ofNat 32 (numeral 2 cs)) = List.replicate (32 - cs.length) 0x30#8 ++ cs := by
  have hpad : ∀ c ∈ List.replicate (32 - cs.length) 0x30#8 ++ cs, binaryChar c := by
    intro c hc
    rcases List.mem_append.1 hc with hzero | hmem
    · exact .inl (List.eq_of_mem_replicate hzero)
    · exact h c hmem
  have hwrites := paddedNumeral_numeral fun c hc => digit_of_binaryChar (hpad c hc)
  have hfull : (List.replicate (32 - cs.length) 0x30#8 ++ cs).length = 32 := by simp [hlen]
  rw [hfull, numeral_replicate_zero_append] at hwrites
  rw [bitString_eq_paddedNumeral, BitVec.toNat_ofNat, Nat.mod_eq_of_lt (numeral_two_lt_of_length_le hlen h), hwrites]

/-- The ports after a request for ENCBIN of an in-range operand. -/
theorem step_drive_encbin (s : State) {n : Operand} (h : inSigned32 n.toInt) :
    step (s.drive (.ofInteger 0#3 n)) =
      .next (answered (s.drive (.ofInteger 0#3 n)) (stringAnswer (bitString (BitVec.ofInt 32 n.toInt)))) :=
  (step_of_op_encbin rfl).trans (exec_encbin_of_inSigned32 _ h)

/-- The ports after a request for DECBIN of a valid string. -/
theorem step_drive_decbin (s : State) {cs : List CharCode} (hne : cs ≠ []) (hlen : cs.length ≤ 32)
    (h : ∀ c ∈ cs, binaryChar c) :
    step (s.drive (.ofString 1#3 (some cs))) =
      .next (answered (s.drive (.ofString 1#3 (some cs))) (integerAnswer (BitVec.ofNat 32 (numeral 2 cs)))) := by
  rw [step_of_op_decbin rfl, State.drive_request, stringOperand_ofString 1#3 (by omega)]
  exact exec_decbin_of_binaryChars _ hne hlen h

/-- ENCBIN's answer, copied to the string ports, is decoded to the operand's pattern. -/
theorem step_drive_chain_bitString (s : State) (bv : Word32) :
    step (s.drive ((stringAnswer (bitString bv)).chainString 1#3)) =
      .next (answered (s.drive ((stringAnswer (bitString bv)).chainString 1#3)) (integerAnswer bv)) := by
  have hlen := bitString_length bv
  have hne : bitString bv ≠ [] := List.ne_nil_of_length_pos (by omega)
  rw [chainString_stringAnswer 1#3 hlen.le, step_drive_decbin s hne hlen.le fun _ => binaryChar_of_mem_bitString,
    numeral_bitString, BitVec.ofNat_toNat, BitVec.setWidth_eq]

/-- DECBIN's answer, copied to the integer port, is encoded to its own pattern. -/
theorem step_drive_chain_integerAnswer (s : State) (v : Word32) :
    step (s.drive ((integerAnswer v).chainInteger 0#3)) =
      .next (answered (s.drive ((integerAnswer v).chainInteger 0#3)) (stringAnswer (bitString v))) := by
  obtain ⟨hkeep, hrange⟩ := toInt_signExtend_word v
  have henc := step_drive_encbin s hrange
  rwa [hkeep, BitVec.ofInt_toInt] at henc

/-- Settles O32: each operation's answer, copied to the request ports, is the other's operand. -/
theorem binaryRoundTrip : Obligations.BinaryRoundTrip := by
  refine ⟨fun n s hrange => ?_, fun cs s hpos hlen hgood => ?_⟩
  · exact ⟨_, _, step_drive_encbin s hrange, step_drive_chain_bitString _ _, rfl, toInt_ofInt_of_inSigned32 hrange⟩
  · have hne := List.length_pos_iff.1 hpos
    have hstring := bitString_ofNat_numeral hlen hgood
    exact ⟨_, _, step_drive_decbin s hne hlen hgood, rfl, step_drive_chain_integerAnswer _ _,
      congrArg stringAnswer hstring⟩

end Sys2Proof.Machine
end

section
/-! PROOFS for 42_octal.md: ENCOCT writes the eleven-digit numeral of its operand's pattern (R131, R132), DECOCT
validates and reads the magnitude (R135, R136, R138), and the round trip holds on the non-negative half alone (R140). -/

namespace Sys2Proof.Machine

open Sys2Proof.Safety

/-! ## The characters that the groupers write -/

/-- `DIGITCHAR` writes the statements' character of its digit (44_helpers.md rule R183). -/
theorem digitChar_eq_digitCode (d : BitVec 4) : digitChar d = digitCode d.toNat := by
  unfold digitChar digitCode
  split_ifs with hle hlt hlt
  · rfl
  · omega
  · omega
  · congr 1
    omega

/-- The digit weight of a bit is the bit of the unsigned reading. -/
theorem toNat_bitValue (bv : Word32) (i : Nat) : (bitValue bv i).toNat = bv.toNat / 2 ^ i % 2 := by
  rw [← Nat.toNat_testBit, BitVec.testBit_toNat, bitValue]
  cases bv.getLsbD i <;> rfl

/-- A group of three bits is the octal digit of its place; the bit missing from the top group is 0 (42_octal.md rules
R130, R132). -/
theorem toNat_octalGroup (bv : Word32) (g : Nat) : (octalGroup bv g).toNat = bv.toNat / 8 ^ g % 8 := by
  have hweight : (2 : Nat) ^ (3 * g) = 8 ^ g := pow_mul 2 3 g
  have hbit (j : Nat) : (bitValue bv (3 * g + j)).toNat = bv.toNat / 8 ^ g / 2 ^ j % 2 := by
    rw [toNat_bitValue, pow_add, hweight, Nat.div_div_eq_div_mul]
  have h0 := hbit 0
  have h1 := hbit 1
  have h2 := hbit 2
  rw [Nat.add_zero] at h0
  rw [octalGroup]
  generalize bv.toNat / 8 ^ g = x at *
  bv_omega

/-- The eleven groups write the octal numeral of the vector's unsigned reading. -/
theorem render_octalGroup (bv : Word32) : render (octalGroup bv) 11 = paddedNumeral 8 11 bv.toNat := by
  rw [render_eq_map]
  refine List.map_congr_left fun k _ => ?_
  rw [digitChar_eq_digitCode, toNat_octalGroup]

/-- The first digit of a padded numeral has the weight of all the places after it. -/
theorem paddedNumeral_succ_eq_cons (radix count u : Nat) :
    paddedNumeral radix (count + 1) u = digitCode (u / radix ^ count % radix) :: paddedNumeral radix count u := by
  simp only [paddedNumeral, List.range_succ_eq_map, List.map_cons, List.map_map]
  congr 1
  refine List.map_congr_left fun k _ => ?_
  have hplace : count + 1 - 1 - (k + 1) = count - 1 - k := by omega
  exact congrArg (fun g => digitCode (u / radix ^ g % radix)) hplace

/-! ## ENCOCT -/

/-- The steps of ENCOCT write the octal numeral of every Signed32 value's pattern; the string that is returned for 0 is
that of its pattern. -/
theorem encodeOctal32_of_inSigned32 {n : Int} (h : inSigned32 n) :
    encodeOctal32 n = .ok (paddedNumeral 8 11 (unsigned32 n)) := by
  unfold encodeOctal32
  split_ifs with hovf hzero
  · simp [ovf_of_inSigned32 h] at hovf
  · subst hzero; rfl
  · rw [encoderVector_eq_ofInt, render_octalGroup, toNat_ofInt_eq_unsigned32]

/-- Settles O15: the eleven groups of the operand's pattern are its octal digits. -/
theorem encoctWritesElevenOctalDigits : Obligations.EncoctWritesElevenOctalDigits := by
  intro n s h
  show Host.Outcome.next (s.deliverChars (encodeOctal32 n.toInt)) = _
  rw [encodeOctal32_of_inSigned32 h, State.deliverChars_ok, ofChars_eq_stringAnswer]
  rfl

/-- The eleventh octal digit of the pattern is made of bits 31 and 30 (42_octal.md rule R131). -/
theorem top_octal_digit_eq_bits (n : Operand) :
    unsigned32 n.toInt / 8 ^ 10 % 8 = 2 * (n.getLsbD 31).toNat + (n.getLsbD 30).toNat := by
  have hpattern : unsigned32 n.toInt = n.toNat % 4294967296 := by
    rw [unsigned32, BitVec.toInt_eq_toNat_cond]
    split <;> omega
  rw [hpattern, ← BitVec.testBit_toNat, ← BitVec.testBit_toNat, Nat.toNat_testBit, Nat.toNat_testBit]
  omega

/-- The eleventh octal digit of the pattern shows the sign. -/
theorem two_le_top_octal_digit_iff {v : Int} (h : inSigned32 v) : 2 ≤ unsigned32 v / 8 ^ 10 % 8 ↔ v < 0 := by
  obtain ⟨hmin, hmax⟩ := h
  rw [unsigned32]
  omega

/-- The four digits that two bits can write, and which of them are 2 or more. -/
theorem digitCode_of_lt_four {d : Nat} (h : d < 4) :
    digitCode d = BitVec.ofNat 8 (0x30 + d) ∧
    (digitCode d = 0x30#8 ∨ digitCode d = 0x31#8 ∨ digitCode d = 0x32#8 ∨ digitCode d = 0x33#8) ∧
    ((digitCode d = 0x32#8 ∨ digitCode d = 0x33#8) ↔ 2 ≤ d) := by
  interval_cases d <;> decide

/-- Settles O16: the first character is the eleventh octal digit. -/
theorem octalTopDigitHoldsTwoBits : Obligations.OctalTopDigitHoldsTwoBits := by
  intro n s h
  have hexec := encoctWritesElevenOctalDigits n s h
  have hsign := two_le_top_octal_digit_iff h
  rw [paddedNumeral_succ_eq_cons, top_octal_digit_eq_bits] at hexec
  rw [top_octal_digit_eq_bits] at hsign
  have hlt : 2 * (n.getLsbD 31).toNat + (n.getLsbD 30).toNat < 4 := by
    have h31 := Bool.toNat_lt (n.getLsbD 31)
    have h30 := Bool.toNat_lt (n.getLsbD 30)
    omega
  obtain ⟨hchar, hfour, htwo⟩ := digitCode_of_lt_four hlt
  exact ⟨_, _, hexec, paddedNumeral_length .., hchar, hfour, htwo.trans hsign⟩

/-! ## DECOCT -/

/-- `CHARVAL` on the octal alphabet: the digit. -/
theorem charVal_of_octalChar {c : CharCode} (h : octalChar c) : charVal c .octal = some (digit c) := by
  obtain ⟨hlow, hhigh⟩ := h
  have hdecimal : c.toNat ≤ 0x39 := by omega
  refine (charVal_eq_some_iff_charDigit ..).2 ⟨?_, ?_⟩
  · simp [charDigit, digit, hlow, hdecimal]
  · show digit c < 8
    rw [digit, if_pos hdecimal]
    omega

/-- `CHARVAL` outside the octal alphabet: undefined. -/
theorem charVal_of_not_octalChar {c : CharCode} (h : ¬ octalChar c) : charVal c .octal = none := by
  by_contra hsome
  obtain ⟨v, hv⟩ := Option.ne_none_iff_exists'.1 hsome
  obtain ⟨hdigit, hlt⟩ := (charVal_eq_some_iff_charDigit c .octal v).1 hv
  replace hlt : v < 8 := hlt
  apply h
  unfold charDigit at hdigit
  split_ifs at hdigit <;> injection hdigit <;> constructor <;> omega

/-- A string with a character outside the octal alphabet is a FormatError under either policy, whatever its value
(42_octal.md rule R138). -/
theorem decodeOctal32_of_bad_char (policy : DecodePolicy) {cs : List CharCode} (h : ∃ c ∈ cs, ¬ octalChar c) :
    decodeOctal32 policy (some cs) = .error .formatError := by
  obtain ⟨c, hmem, hbad⟩ := h
  rw [decodeOctal32, parseString_of_exists_charVal_none ⟨c, hmem, charVal_of_not_octalChar hbad⟩]

/-- A string of octal digits returns what the policy makes of its value, at any length (42_octal.md rules R136,
R137). -/
theorem decodeOctal32_of_octalChars (policy : DecodePolicy) {cs : List CharCode} (hne : cs ≠ [])
    (h : ∀ c ∈ cs, octalChar c) : decodeOctal32 policy (some cs) = signedUnderPolicy policy (numeral 8 cs) := by
  rw [decodeOctal32, parseString_of_forall_charVal hne fun c hc => charVal_of_octalChar (h c hc)]
  rfl

/-- What DECOCT answers when it fails. -/
theorem exec_decoct_of_error {str : StringOperand} {kind : FailureKind} (s : State)
    (h : decodeOctal32 .magnitude str = .error kind) :
    exec (.decoct str) s = .next (answered s (failureAnswer (statusOf kind))) := by
  show Host.Outcome.next (s.deliverSigned (decodeOctal32 .magnitude str)) = _
  rw [h, State.deliverSigned_error, ← failure_eq_failureAnswer]
  rfl

/-- What DECOCT answers when it returns a magnitude. -/
theorem exec_decoct_of_ok {str : StringOperand} {u : Nat} (s : State)
    (h : decodeOctal32 .magnitude str = .ok (u : Int)) :
    exec (.decoct str) s = .next (answered s (integerAnswer (BitVec.ofNat 32 u))) := by
  show Host.Outcome.next (s.deliverSigned (decodeOctal32 .magnitude str)) = _
  rw [h, State.deliverSigned_ok, ofSigned_eq_integerAnswer, BitVec.ofInt_natCast]
  rfl

/-- Settles O26: the two policies on a string's value. -/
theorem octalPolicyChoosesTheReading : Obligations.OctalPolicyChoosesTheReading := by
  refine ⟨rfl, fun cs hne hgood => ?_, ?_⟩
  · simp only [decodeOctal32_of_octalChars _ hne hgood, signedUnderPolicy_magnitude, signedUnderPolicy_wrap]
    refine ⟨fun hlarge => if_pos hlarge, fun hfits => if_neg hfits.not_gt, fun hlarge => if_pos hlarge,
      fun hfits => ?_⟩
    rw [if_neg hfits.not_gt, tcsigned_eq_toInt_ofNat (Nat.lt_succ_of_le hfits)]
  · rw [decodeOctal32_of_octalChars .wrap (by decide) (by decide)]
    rfl

/-- Settles O24: one clause per outcome of the checks, in their order. -/
theorem decoctValidatesThenReadsMagnitude : Obligations.DecoctValidatesThenReadsMagnitude := by
  intro s
  obtain ⟨-, hpolicy, -⟩ := octalPolicyChoosesTheReading
  refine ⟨?_, ?_, fun cs hbad => ?_, fun cs hne hgood hlarge => ?_, fun cs hne hgood hfits => ?_⟩
  · exact exec_decoct_of_error s (kind := .invalidArgument) rfl
  · exact exec_decoct_of_error s (kind := .invalidArgument) rfl
  · exact exec_decoct_of_error s (decodeOctal32_of_bad_char .magnitude hbad)
  · obtain ⟨hoverflow, -⟩ := hpolicy cs hne hgood
    exact exec_decoct_of_error s (hoverflow hlarge)
  · obtain ⟨-, hvalue, -⟩ := hpolicy cs hne hgood
    exact exec_decoct_of_ok s (hvalue hfits)

/-! ## The round trip through the ports -/

/-- The unsigned pattern of an integer, as a word. -/
theorem ofNat_unsigned32 (v : Int) : BitVec.ofNat 32 (unsigned32 v) = BitVec.ofInt 32 v := by
  rw [← toNat_ofInt_eq_unsigned32, BitVec.ofNat_toNat, BitVec.setWidth_eq]

/-- The pattern of a Signed32 value, read as unsigned, is above `INT32_MAX` exactly for a negative one. -/
theorem unsigned32_gt_int32Max_iff {v : Int} (h : inSigned32 v) : 2147483647 < unsigned32 v ↔ v < 0 := by
  obtain ⟨hmin, hmax⟩ := h
  rw [unsigned32]
  omega

/-- `TCSIGNED` of a Signed32 value's pattern is the value (44_helpers.md rule R176). -/
theorem tcsigned_unsigned32 {v : Int} (h : inSigned32 v) : tcsigned (unsigned32 v) = v := by
  obtain ⟨hmin, hmax⟩ := h
  rw [tcsigned, unsigned32]
  split <;> omega

/-- A numeral in base 8 is written in octal digits. -/
theorem octalChar_of_mem_paddedNumeral {count u : Nat} {c : CharCode} (h : c ∈ paddedNumeral 8 count u) :
    octalChar c := by
  obtain ⟨k, -, rfl⟩ := List.mem_map.1 h
  have hdigit : u / 8 ^ (count - 1 - k) % 8 < 8 := Nat.mod_lt _ (by decide)
  interval_cases u / 8 ^ (count - 1 - k) % 8 <;> decide

/-- The caller's copy of an encode result presents the result string as the operand. -/
theorem stringOperand_chainString (op : OpCode) {t : List CharCode} (h : t.length ≤ 32) :
    ((stringAnswer t).chainString op).stringOperand = some t := by
  rw [chainString_stringAnswer op h, stringOperand_ofString op (by omega)]

/-- A request whose `op` is 2 runs ENCOCT of its integer port. -/
theorem step_of_op_encoct {s : State} (h : s.request.op = 2#3) : step s = exec (.encoct s.request.n) s := by
  simp [step, decode, h]

/-- A request whose `op` is 3 runs DECOCT of its string ports. -/
theorem step_of_op_decoct {s : State} (h : s.request.op = 3#3) :
    step s = exec (.decoct s.request.stringOperand) s := by
  simp [step, decode, h]

/-- ENCOCT's digits are octal digits and write the operand's whole pattern, so a policy decides on that pattern. -/
theorem decodeOctal32_paddedNumeral_unsigned32 (policy : DecodePolicy) (v : Int) :
    decodeOctal32 policy (some (paddedNumeral 8 11 (unsigned32 v))) = signedUnderPolicy policy (unsigned32 v) := by
  have hne : paddedNumeral 8 11 (unsigned32 v) ≠ [] := List.ne_nil_of_length_pos (by simp)
  have hfits : unsigned32 v < 8 ^ 11 := by
    rw [unsigned32]
    omega
  rw [decodeOctal32_of_octalChars policy hne fun _ => octalChar_of_mem_paddedNumeral,
    numeral_paddedNumeral (by decide) (by decide), Nat.mod_eq_of_lt hfits]

/-- Under WRAP the decode of ENCOCT's digits returns every Signed32 value. -/
theorem decodeOctal32_wrap_paddedNumeral {v : Int} (h : inSigned32 v) :
    decodeOctal32 .wrap (some (paddedNumeral 8 11 (unsigned32 v))) = .ok v := by
  have hfits : ¬ 4294967295 < unsigned32 v := by
    rw [unsigned32]
    omega
  rw [decodeOctal32_paddedNumeral_unsigned32, signedUnderPolicy_wrap, if_neg hfits, tcsigned_unsigned32 h]

/-- What DECOCT answers for ENCOCT's digits: the pattern of a negative value is above `INT32_MAX`. -/
theorem exec_decoct_paddedNumeral {v : Int} (s : State) (h : inSigned32 v) :
    exec (.decoct (some (paddedNumeral 8 11 (unsigned32 v)))) s =
      .next (answered s (if v < 0 then failureAnswer 0b11#2 else integerAnswer (BitVec.ofInt 32 v))) := by
  have hdecode := decodeOctal32_paddedNumeral_unsigned32 .magnitude v
  have hsign := unsigned32_gt_int32Max_iff h
  rw [signedUnderPolicy_magnitude] at hdecode
  by_cases hneg : v < 0
  · rw [if_pos (hsign.2 hneg)] at hdecode
    rw [if_pos hneg]
    exact exec_decoct_of_error s hdecode
  · rw [if_neg (mt hsign.1 hneg)] at hdecode
    rw [if_neg hneg, ← ofNat_unsigned32]
    exact exec_decoct_of_ok s hdecode

/-- A string answer, copied to the string ports, is DECOCT's operand. -/
theorem step_drive_chain_decoct (s : State) {t : List CharCode} (h : t.length ≤ 32) :
    step (s.drive ((stringAnswer t).chainString 3#3)) =
      exec (.decoct (some t)) (s.drive ((stringAnswer t).chainString 3#3)) := by
  rw [step_of_op_decoct rfl, State.drive_request, stringOperand_chainString 3#3 h]

/-- Settles O33: DECOCT reads ENCOCT's digits as the operand's unsigned pattern. -/
theorem octalRoundTripIsNonNegativeOnly : Obligations.OctalRoundTripIsNonNegativeOnly := by
  intro n s h
  have hlen : (paddedNumeral 8 11 (unsigned32 n.toInt)).length ≤ 32 := by simp
  refine ⟨_, _, (step_of_op_encoct rfl).trans (encoctWritesElevenOctalDigits n _ h),
    (step_drive_chain_decoct _ hlen).trans (exec_decoct_paddedNumeral _ h),
    fun hnonneg => ?_, fun hneg => if_pos hneg, ?_⟩
  · rw [if_neg hnonneg.not_gt]
    exact ⟨rfl, toInt_ofInt_of_inSigned32 h⟩
  · exact (congrArg _ (stringOperand_chainString 3#3 hlen)).trans (decodeOctal32_wrap_paddedNumeral h)

end Sys2Proof.Machine
end

section
/-! PROOFS for 43_hex.md: ENCHEX writes the eight-digit numeral of its operand's pattern (R151), DECHEX validates and
wraps (R155, R156) with no regard to the case of letters (R157), and the round trip gives every operand back (R160). -/

namespace Sys2Proof.Machine

open Sys2Proof.Safety

/-! ## ENCHEX -/

/-- A nibble is the hexadecimal digit of its place (43_hex.md rule R150). -/
theorem toNat_hexGroup (bv : Word32) (g : Nat) : (hexGroup bv g).toNat = bv.toNat / 16 ^ g % 16 := by
  have hweight : (2 : Nat) ^ (4 * g) = 16 ^ g := pow_mul 2 4 g
  have hbit (j : Nat) : (bitValue bv (4 * g + j)).toNat = bv.toNat / 16 ^ g / 2 ^ j % 2 := by
    rw [toNat_bitValue, pow_add, hweight, Nat.div_div_eq_div_mul]
  have h0 := hbit 0
  have h1 := hbit 1
  have h2 := hbit 2
  have h3 := hbit 3
  rw [Nat.add_zero] at h0
  rw [hexGroup]
  generalize bv.toNat / 16 ^ g = x at *
  bv_omega

/-- The eight nibbles write the hexadecimal numeral of the vector's unsigned reading. -/
theorem render_hexGroup (bv : Word32) : render (hexGroup bv) 8 = paddedNumeral 16 8 bv.toNat := by
  rw [render_eq_map]
  refine List.map_congr_left fun k _ => ?_
  rw [digitChar_eq_digitCode, toNat_hexGroup]

/-- The nibbles of the encoder's vector write the operand's unsigned pattern. -/
theorem render_hexGroup_encoderVector (v : Int) :
    render (hexGroup (encoderVector v)) 8 = paddedNumeral 16 8 (unsigned32 v) := by
  rw [encoderVector_eq_ofInt, render_hexGroup, toNat_ofInt_eq_unsigned32]

/-- The steps of ENCHEX write the hexadecimal numeral of every Signed32 value's pattern; the string that is returned
for 0 is that of its pattern. -/
theorem encodeHex32_of_inSigned32 {n : Int} (h : inSigned32 n) :
    encodeHex32 n = .ok (paddedNumeral 16 8 (unsigned32 n)) := by
  unfold encodeHex32
  split_ifs with hovf hzero
  · simp [ovf_of_inSigned32 h] at hovf
  · subst hzero; rfl
  · rw [render_hexGroup_encoderVector]

/-- What ENCHEX answers for an in-range operand. -/
theorem exec_enchex_of_inSigned32 {n : Operand} (s : State) (h : inSigned32 n.toInt) :
    exec (.enchex n) s = .next (answered s (stringAnswer (paddedNumeral 16 8 (unsigned32 n.toInt)))) := by
  show Host.Outcome.next (s.deliverChars (encodeHex32 n.toInt)) = _
  rw [encodeHex32_of_inSigned32 h, State.deliverChars_ok, ofChars_eq_stringAnswer]
  rfl

/-- The eighth hexadecimal digit of the pattern shows the sign. -/
theorem eight_le_top_hex_digit_iff {v : Int} (h : inSigned32 v) : 8 ≤ unsigned32 v / 16 ^ 7 % 16 ↔ v < 0 := by
  obtain ⟨hmin, hmax⟩ := h
  rw [unsigned32]
  omega

/-- The characters `8` to `F` are those of the digits from 8 on. -/
theorem digitCode_eight_to_F_iff {d : Nat} (h : d < 16) :
    (digitCode d = 0x38#8 ∨ digitCode d = 0x39#8 ∨ (0x41 ≤ (digitCode d).toNat ∧ (digitCode d).toNat ≤ 0x46)) ↔
      8 ≤ d := by
  interval_cases d <;> decide

/-- Settles O17: the eight nibbles of the operand's pattern are its hexadecimal digits, and the first holds the sign
bit. -/
theorem enchexWritesEightHexDigits : Obligations.EnchexWritesEightHexDigits := by
  intro n s h
  have hcons := paddedNumeral_succ_eq_cons 16 7 (unsigned32 n.toInt)
  have hdigit : unsigned32 n.toInt / 16 ^ 7 % 16 < 16 := Nat.mod_lt _ (by decide)
  refine ⟨_, _, hcons.symm, ?_, ?_, ?_⟩
  · rw [← hcons, exec_enchex_of_inSigned32 s h]
  · rw [digitCode_eight_to_F_iff hdigit, eight_le_top_hex_digit_iff h]
  · rw [encodeHex32_of_inSigned32 h, render_hexGroup_encoderVector]

/-! ## DECHEX -/

/-- The digits of the hexadecimal alphabet are below 16. -/
theorem digit_lt_of_hexChar {c : CharCode} (h : hexChar c) : digit c < 16 := by
  unfold digit
  split_ifs <;> omega

/-- `CHARVAL` in base 16 in the statements' terms: the digit on the hexadecimal alphabet, undefined outside it. -/
theorem charVal_hex_eq_ite (c : CharCode) : charVal c .hex = if hexChar c then some (digit c) else none := by
  by_cases hgood : hexChar c
  · rw [if_pos hgood, charVal_eq_some_iff_charDigit]
    refine ⟨?_, digit_lt_of_hexChar hgood⟩
    unfold charDigit digit
    rcases hgood with hdecimal | hupper | hlower
    · rw [if_pos hdecimal, if_pos hdecimal.2]
    · rw [if_neg (by omega), if_pos hupper, if_neg (by omega), if_pos hupper.2]
      congr 1
      omega
    · rw [if_neg (by omega), if_neg (by omega), if_pos hlower, if_neg (by omega), if_neg (by omega)]
      congr 1
      omega
  · obtain ⟨hdecimal, hupper, hlower⟩ : ¬ _ ∧ ¬ _ ∧ ¬ _ := by simpa only [hexChar, not_or] using hgood
    rw [if_neg hgood, charVal, charDigit, if_neg hdecimal, if_neg hupper, if_neg hlower]

/-- A string with a character outside the hexadecimal alphabet is a FormatError under either policy, whatever its
value. -/
theorem decodeHex32_of_bad_char (policy : DecodePolicy) {cs : List CharCode} (h : ∃ c ∈ cs, ¬ hexChar c) :
    decodeHex32 policy (some cs) = .error .formatError := by
  obtain ⟨c, hmem, hbad⟩ := h
  have hundefined : charVal c .hex = none := by rw [charVal_hex_eq_ite, if_neg hbad]
  rw [decodeHex32, parseString_of_exists_charVal_none ⟨c, hmem, hundefined⟩]

/-- A string of hexadecimal digits returns what the policy makes of its value, at any length (43_hex.md rules R156,
R158). -/
theorem decodeHex32_of_hexChars (policy : DecodePolicy) {cs : List CharCode} (hne : cs ≠ [])
    (h : ∀ c ∈ cs, hexChar c) : decodeHex32 policy (some cs) = signedUnderPolicy policy (numeral 16 cs) := by
  have hdigits : ∀ c ∈ cs, charVal c .hex = some (digit c) := fun c hc => by rw [charVal_hex_eq_ite, if_pos (h c hc)]
  rw [decodeHex32, parseString_of_forall_charVal hne hdigits]
  rfl

/-- What DECHEX answers when it fails. -/
theorem exec_dechex_of_error {str : StringOperand} {kind : FailureKind} (s : State)
    (h : decodeHex32 .wrap str = .error kind) :
    exec (.dechex str) s = .next (answered s (failureAnswer (statusOf kind))) := by
  show Host.Outcome.next (s.deliverSigned (decodeHex32 .wrap str)) = _
  rw [h, State.deliverSigned_error, ← failure_eq_failureAnswer]
  rfl

/-- What DECHEX answers when it returns a signed reading. -/
theorem exec_dechex_of_ok {str : StringOperand} {v : Int} (s : State) (h : decodeHex32 .wrap str = .ok v) :
    exec (.dechex str) s = .next (answered s (integerAnswer (BitVec.ofInt 32 v))) := by
  show Host.Outcome.next (s.deliverSigned (decodeHex32 .wrap str)) = _
  rw [h, State.deliverSigned_ok, ofSigned_eq_integerAnswer]
  rfl

/-- Settles O27: the two policies on a string's value. -/
theorem hexPolicyChoosesTheReading : Obligations.HexPolicyChoosesTheReading := by
  refine ⟨rfl, fun cs hne hgood => ?_⟩
  simp only [decodeHex32_of_hexChars _ hne hgood, signedUnderPolicy_magnitude, signedUnderPolicy_wrap]
  refine ⟨fun hlarge => if_pos hlarge, fun hfits => ?_, fun hlarge => if_pos hlarge, fun hfits => if_neg hfits.not_gt⟩
  rw [if_neg hfits.not_gt, tcsigned_eq_toInt_ofNat (Nat.lt_succ_of_le hfits)]

/-- What DECHEX answers for a valid string whose value is 32 bits. -/
theorem exec_dechex_of_hexChars {cs : List CharCode} (s : State) (hne : cs ≠ []) (h : ∀ c ∈ cs, hexChar c)
    (hfits : numeral 16 cs ≤ 4294967295) :
    exec (.dechex (some cs)) s = .next (answered s (integerAnswer (BitVec.ofNat 32 (numeral 16 cs)))) := by
  obtain ⟨-, hpolicy⟩ := hexPolicyChoosesTheReading
  obtain ⟨-, hvalue, -⟩ := hpolicy cs hne h
  rw [exec_dechex_of_ok s (hvalue hfits), BitVec.ofInt_toInt]

/-- Settles O25: one clause per outcome of the checks, in their order. -/
theorem dechexValidatesThenWraps : Obligations.DechexValidatesThenWraps := by
  intro s
  obtain ⟨-, hpolicy⟩ := hexPolicyChoosesTheReading
  refine ⟨?_, ?_, fun cs hbad => ?_, fun cs hne hgood hlarge => ?_, fun cs hne hgood hfits => ?_⟩
  · exact exec_dechex_of_error s (kind := .invalidArgument) rfl
  · exact exec_dechex_of_error s (kind := .invalidArgument) rfl
  · exact exec_dechex_of_error s (decodeHex32_of_bad_char .wrap hbad)
  · obtain ⟨hoverflow, -⟩ := hpolicy cs hne hgood
    exact exec_dechex_of_error s (hoverflow hlarge)
  · exact exec_dechex_of_hexChars s hne hgood hfits

/-! ## The case of letters -/

/-- The characters are equal, or the two cases of one hexadecimal letter (43_hex.md rule R157). -/
abbrev SameButForCase (c d : CharCode) : Prop :=
  c = d ∨ (0x41 ≤ c.toNat ∧ c.toNat ≤ 0x46 ∧ d.toNat = c.toNat + 0x20) ∨
    (0x61 ≤ c.toNat ∧ c.toNat ≤ 0x66 ∧ c.toNat = d.toNat + 0x20)

/-- The two cases of a letter have one digit value. -/
theorem charVal_hex_eq_of_sameButForCase {c d : CharCode} (h : SameButForCase c d) :
    charVal c .hex = charVal d .hex := by
  rcases h with rfl | hletter
  · rfl
  · have hdigits : digit c = digit d := by
      unfold digit
      split_ifs <;> omega
    rw [charVal_hex_eq_ite, charVal_hex_eq_ite, if_pos (by omega), if_pos (by omega), hdigits]

/-- The digits of a string depend on the digit values of its characters alone. -/
theorem digitsOf_congr {b : Base} {cs ds : List CharCode}
    (h : List.Forall₂ (fun c d => charVal c b = charVal d b) cs ds) : digitsOf b cs = digitsOf b ds := by
  induction h with
  | nil => rfl
  | cons hhead _ ih => rw [digitsOf, digitsOf, hhead, ih]

/-- What is read from a string depends on the digit values of its characters alone. -/
theorem parseString_congr {b : Base} {cs ds : List CharCode}
    (h : List.Forall₂ (fun c d => charVal c b = charVal d b) cs ds) :
    parseString b (some cs) = parseString b (some ds) := by
  have hdigits := digitsOf_congr h
  cases h with
  | nil => rfl
  | cons _ _ => rw [parseString_some b _ (by simp), parseString_some b _ (by simp), parseDigits, parseDigits, hdigits]

/-- Settles O31: the case of a letter is lost with its digit value, before the value of the string is formed. -/
theorem hexLetterCaseDoesNotMatter : Obligations.HexLetterCaseDoesNotMatter := by
  refine ⟨by decide, fun cs ds s hcase => ?_, fun s cs hmem => ?_⟩
  · have hparse := parseString_congr (hcase.imp fun _ _ => charVal_hex_eq_of_sameButForCase)
    have hdecode : decodeHex32 .wrap (some cs) = decodeHex32 .wrap (some ds) := by
      rw [decodeHex32, decodeHex32, hparse]
    exact congrArg (fun result => Host.Outcome.next (s.deliverSigned result)) hdecode
  · have hvalid : cs ≠ [] ∧ (∀ c ∈ cs, hexChar c) ∧ numeral 16 cs = 4294967041 := by
      revert cs
      decide
    obtain ⟨hne, hgood, hvalue⟩ := hvalid
    rw [exec_dechex_of_hexChars s hne hgood (by omega), hvalue]
    rfl

/-! ## The round trip through the ports -/

/-- A numeral in base 16 is written in hexadecimal digits. -/
theorem hexChar_of_mem_paddedNumeral {count u : Nat} {c : CharCode} (h : c ∈ paddedNumeral 16 count u) :
    hexChar c := by
  obtain ⟨k, -, rfl⟩ := List.mem_map.1 h
  have hdigit : u / 16 ^ (count - 1 - k) % 16 < 16 := Nat.mod_lt _ (by decide)
  interval_cases u / 16 ^ (count - 1 - k) % 16 <;> decide

/-- ENCHEX's digits are hexadecimal digits and write the operand's whole pattern, so a policy decides on that
pattern. -/
theorem decodeHex32_paddedNumeral_unsigned32 (policy : DecodePolicy) (v : Int) :
    decodeHex32 policy (some (paddedNumeral 16 8 (unsigned32 v))) = signedUnderPolicy policy (unsigned32 v) := by
  have hne : paddedNumeral 16 8 (unsigned32 v) ≠ [] := List.ne_nil_of_length_pos (by simp)
  have hfits : unsigned32 v < 16 ^ 8 := by
    rw [unsigned32]
    omega
  rw [decodeHex32_of_hexChars policy hne fun _ => hexChar_of_mem_paddedNumeral,
    numeral_paddedNumeral (by decide) (by decide), Nat.mod_eq_of_lt hfits]

/-- WRAP returns every Signed32 value from its pattern. -/
theorem signedUnderPolicy_wrap_unsigned32 {v : Int} (h : inSigned32 v) :
    signedUnderPolicy .wrap (unsigned32 v) = .ok v := by
  have hfits : ¬ 4294967295 < unsigned32 v := by
    rw [unsigned32]
    omega
  rw [signedUnderPolicy_wrap, if_neg hfits, tcsigned_unsigned32 h]

/-- MAGNITUDE returns a Signed32 value from its pattern when the value is not negative, and fails otherwise. -/
theorem signedUnderPolicy_magnitude_unsigned32 {v : Int} (h : inSigned32 v) :
    signedUnderPolicy .magnitude (unsigned32 v) = if 0 ≤ v then .ok v else .error .overflowError := by
  have hsign := unsigned32_gt_int32Max_iff h
  rw [signedUnderPolicy_magnitude]
  by_cases hnonneg : 0 ≤ v
  · have hvalue : (unsigned32 v : Int) = v := by
      rw [unsigned32]
      omega
    rw [if_neg (mt hsign.1 hnonneg.not_gt), if_pos hnonneg, hvalue]
  · rw [if_pos (hsign.2 (not_le.1 hnonneg)), if_neg hnonneg]

/-- A request whose `op` is 4 runs ENCHEX of its integer port. -/
theorem step_of_op_enchex {s : State} (h : s.request.op = 4#3) : step s = exec (.enchex s.request.n) s := by
  simp [step, decode, h]

/-- A request whose `op` is 5 runs DECHEX of its string ports. -/
theorem step_of_op_dechex {s : State} (h : s.request.op = 5#3) :
    step s = exec (.dechex s.request.stringOperand) s := by
  simp [step, decode, h]

/-- ENCHEX's answer, copied to the string ports, is decoded to the operand's pattern. -/
theorem step_drive_chain_dechex (s : State) {v : Int} (h : inSigned32 v) :
    step (s.drive ((stringAnswer (paddedNumeral 16 8 (unsigned32 v))).chainString 5#3)) =
      .next (answered (s.drive ((stringAnswer (paddedNumeral 16 8 (unsigned32 v))).chainString 5#3))
        (integerAnswer (BitVec.ofInt 32 v))) := by
  have hdecode := (decodeHex32_paddedNumeral_unsigned32 .wrap v).trans (signedUnderPolicy_wrap_unsigned32 h)
  rw [step_of_op_dechex rfl, State.drive_request, stringOperand_chainString 5#3 (by simp)]
  exact exec_dechex_of_ok _ hdecode

/-- Fewer than eight hexadecimal digits write a value below `2^28`. -/
theorem numeral_hex_lt_of_length_lt {cs : List CharCode} (hlen : cs.length < 8) (h : ∀ c ∈ cs, hexChar c) :
    numeral 16 cs < 268435456 :=
  calc numeral 16 cs < 16 ^ cs.length := numeral_lt_pow fun c hc => digit_lt_of_hexChar (h c hc)
    _ ≤ 16 ^ 7 := Nat.pow_le_pow_right (by decide) (Nat.le_of_lt_succ hlen)

/-- Settles O34: DECHEX reads ENCHEX's digits as the operand's pattern, and `TCSIGNED` of a value below `2^31` is the
value. -/
theorem hexRoundTrip : Obligations.HexRoundTrip := by
  refine ⟨fun n s h => ?_, fun cs s hne hgood hfits => ?_⟩
  · have hlen : (paddedNumeral 16 8 (unsigned32 n.toInt)).length ≤ 32 := by simp
    refine ⟨_, _, (step_of_op_enchex rfl).trans (exec_enchex_of_inSigned32 _ h), step_drive_chain_dechex _ h,
      rfl, toInt_ofInt_of_inSigned32 h, ?_⟩
    exact (congrArg _ (stringOperand_chainString 5#3 hlen)).trans
      ((decodeHex32_paddedNumeral_unsigned32 .magnitude _).trans (signedUnderPolicy_magnitude_unsigned32 h))
  · refine ⟨_, exec_dechex_of_hexChars s hne hgood hfits, ?_⟩
    rw [← tcsigned_eq_toInt_ofNat (Nat.lt_succ_of_le hfits), tcsigned]
    refine ⟨by split <;> omega, fun hlen => if_pos ?_⟩
    have hsmall := numeral_hex_lt_of_length_lt hlen hgood
    omega

end Sys2Proof.Machine
end

section
/-! PROOFS for 44_helpers.md: the laws of `TCNEG` (R172) and `TCSIGNED` (R176), the overflow_detector in its integer, bit
and port forms (R180, R181, R182), and the two character helpers, each by its table and as inverses (R183, R185, R186). -/

namespace Sys2Proof.Machine

open Sys2Proof.Safety

/-! ## twos_complement_converter -/

/-- Settles O36: `TCNEG` is negation of 32-bit words, which negates the signed reading of every word but that of
`INT32_MIN`. -/
theorem tcnegIsTwosComplementNegation : Obligations.TcnegIsTwosComplementNegation := by
  simp only [Obligations.TcnegIsTwosComplementNegation, tcneg_eq_neg]
  refine ⟨fun bv => ⟨BitVec.toNat_neg bv, neg_neg bv, fun hne => ?_⟩, by decide⟩
  exact BitVec.toInt_neg_of_ne_intMin hne

/-- `TCSIGNED` of a 32-bit value is that value modulo `2^32` (R176). -/
theorem unsigned32_tcsigned {u : Nat} (h : u < 4294967296) : unsigned32 (tcsigned u) = u := by
  rw [unsigned32, tcsigned]
  split <;> omega

/-- Settles O37: `TCSIGNED` is the signed reading, and the pattern of its value is its operand. -/
theorem tcsignedIsTheSignedReading : Obligations.TcsignedIsTheSignedReading := by
  refine ⟨fun u hu => ?_, fun _ => tcsigned_unsigned32, by decide⟩
  have hrange := tcsigned_inSigned32 (Nat.le_of_lt_succ hu)
  exact ⟨tcsigned_eq_toInt_ofNat hu, hrange, ovf_of_inSigned32 hrange, unsigned32_tcsigned hu⟩

/-! ## overflow_detector -/

/-- `OVF` is 1 exactly outside the Signed32 range (R180). -/
theorem ovf_eq_true_iff (v : Int) : ovf v = true ↔ v ≤ -2147483649 ∨ 2147483648 ≤ v := by
  rw [ovf, Bool.or_eq_true, decide_eq_true_eq, decide_eq_true_eq, int32Min, int32Max]
  omega

/-- `OVF` is 0 exactly in the Signed32 range. -/
theorem ovf_eq_false_iff (v : Int) : ovf v = false ↔ inSigned32 v := by
  rw [← Bool.not_eq_true, ovf_eq_true_iff]
  omega

/-- An operand is in the Signed32 range exactly when it is the sign extension of its low word. -/
theorem inSigned32_toInt_iff_signExtend (n : Operand) :
    inSigned32 n.toInt ↔ (n.setWidth 32).signExtend 64 = n := by
  constructor
  · rintro ⟨hmin, hmax⟩
    obtain ⟨hkeep, -⟩ := toInt_signExtend_word (n.setWidth 32)
    have hlow : (n.setWidth 32).toInt = n.toInt := by
      rw [← BitVec.signExtend_eq_setWidth_of_le n (by decide), BitVec.toInt_signExtend_eq_toInt_bmod_of_le n (by decide)]
      exact Int.bmod_eq_of_le (by omega) (by omega)
    exact BitVec.eq_of_toInt_eq (hkeep.trans hlow)
  · intro hext
    obtain ⟨hkeep, hrange⟩ := toInt_signExtend_word (n.setWidth 32)
    rwa [hext] at hkeep hrange

/-- The sign extension of an operand's low word repeats bit 31 from there on. -/
theorem getLsbD_signExtend_setWidth (n : Operand) {i : Nat} (hi : i < 64) :
    ((n.setWidth 32).signExtend 64).getLsbD i = if i < 31 then n.getLsbD i else n.getLsbD 31 := by
  have hmsb : (n.setWidth 32).msb = n.getLsbD 31 := by simp [BitVec.msb_eq_getLsbD_last]
  rw [BitVec.getLsbD_signExtend, BitVec.getLsbD_setWidth, hmsb]
  rcases lt_trichotomy i 31 with hlt | rfl | hgt
  · simp [hi, hlt, Nat.lt_succ_of_lt hlt]
  · simp
  · simp [hi, hgt.not_gt, Nat.not_lt.2 (Nat.succ_le_of_lt hgt)]

/-- An operand is the sign extension of its low word exactly when its bits 31 to 63 are all equal (R181). -/
theorem signExtend_setWidth_eq_self_iff (n : Operand) :
    (n.setWidth 32).signExtend 64 = n ↔ ∀ i : Nat, 31 ≤ i → i ≤ 63 → n.getLsbD i = n.getLsbD 63 := by
  constructor
  · intro hext
    have hbit (i : Nat) (hlow : 31 ≤ i) (hhigh : i ≤ 63) : n.getLsbD i = n.getLsbD 31 := by
      have hi := getLsbD_signExtend_setWidth n (Nat.lt_succ_of_le hhigh)
      rwa [hext, if_neg hlow.not_gt] at hi
    intro i hlow hhigh
    rw [hbit i hlow hhigh, hbit 63 (by decide) le_rfl]
  · intro hsign
    refine BitVec.eq_of_getLsbD_eq fun i hi => ?_
    rw [getLsbD_signExtend_setWidth n hi]
    split
    case isTrue => rfl
    case isFalse hhigh => rw [hsign 31 le_rfl (by decide), hsign i (not_lt.1 hhigh) (Nat.le_of_lt_succ hi)]

/-- The port that carries a decode value saturated at `2^32` reads as that value (R182). -/
theorem toInt_ofNat_min (v : Nat) : (BitVec.ofNat 64 (min v 4294967296)).toInt = (min v 4294967296 : Nat) := by
  have hle : min v 4294967296 ≤ 4294967296 := Nat.min_le_right ..
  rw [← BitVec.ofInt_natCast]
  exact BitVec.toInt_ofInt_eq_self (by decide) (by omega) (by omega)

/-- Settles O38: the bits of an operand from 31 on are equal when it is its low word's sign extension, and saturation
keeps a value on its side of `INT32_MAX`. -/
theorem overflowDetectorIsTheRangeTest : Obligations.OverflowDetectorIsTheRangeTest := by
  refine ⟨ovf_eq_true_iff, fun n => ?_, fun v => ?_⟩
  · rw [overflowDetector, ovf_eq_false_iff, inSigned32_toInt_iff_signExtend, signExtend_setWidth_eq_self_iff]
  · rw [overflowDetector, toInt_ofNat_min, Bool.eq_iff_iff, ovf_eq_true_iff, ovf_eq_true_iff]
    omega

/-! ## The character helpers -/

/-- Settles O39: the sixteen rows of the table. -/
theorem digitCharTable : Obligations.DigitCharTable := by
  simp only [Obligations.DigitCharTable, digitChar_eq_digitCode]
  decide

/-- Which characters have a digit, and which digit: the three ranges of R185, of which no two meet. -/
theorem charDigit_eq_some_iff (c : CharCode) (v : Nat) :
    charDigit c = some v ↔
      (0x30 ≤ c.toNat ∧ c.toNat ≤ 0x39 ∧ v = c.toNat - 0x30) ∨
      (0x41 ≤ c.toNat ∧ c.toNat ≤ 0x46 ∧ v = c.toNat - 0x41 + 10) ∨
      (0x61 ≤ c.toNat ∧ c.toNat ≤ 0x66 ∧ v = c.toNat - 0x61 + 10) := by
  unfold charDigit
  split_ifs with hdecimal hupper hlower
  · rw [Option.some_inj]; omega
  · rw [Option.some_inj]; omega
  · rw [Option.some_inj]; omega
  · simp only [false_iff]; omega

/-- Settles O40: a character's digit by its range, kept below the base. -/
theorem charValByRanges : Obligations.CharValByRanges := by
  intro c b v
  rw [charVal_eq_some_iff_charDigit, charDigit_eq_some_iff, and_comm]

/-- The code of a digit's character. -/
theorem toNat_digitCode {d : Nat} (h : d < 16) : (digitCode d).toNat = if d < 10 then 0x30 + d else 0x37 + d := by
  unfold digitCode
  split <;> exact Nat.mod_eq_of_lt (by omega)

/-- `CHARVAL` gives back a digit of the base from the character `DIGITCHAR` writes for it (R186). -/
theorem charVal_digitChar {d : BitVec 4} {b : Base} (h : d.toNat < b.radix) :
    charVal (digitChar d) b = some d.toNat := by
  refine (charValByRanges ..).2 ⟨h, ?_⟩
  rw [digitChar_eq_digitCode, toNat_digitCode d.isLt]
  split <;> omega

/-- `DIGITCHAR` writes the digit of a hexadecimal character as that character or its upper-case form (R186). -/
theorem digitChar_of_charVal_hex {c : CharCode} {v : Nat} (h : charVal c .hex = some v) :
    digitChar (BitVec.ofNat 4 v) = if 0x61 ≤ c.toNat then c - 0x20#8 else c := by
  obtain ⟨hlt, hranges⟩ := (charValByRanges ..).1 h
  have hdigit : v < 16 := hlt
  have hword : (BitVec.ofNat 4 v).toNat = v := Nat.mod_eq_of_lt hdigit
  apply BitVec.eq_of_toNat_eq
  rw [digitChar_eq_digitCode, hword, toNat_digitCode hdigit]
  rcases hranges with ⟨hmin, hmax, rfl⟩ | ⟨hmin, hmax, rfl⟩ | ⟨hmin, hmax, rfl⟩
  · rw [if_pos (by omega), if_neg (by omega)]
    omega
  · rw [if_neg (by omega), if_neg (by omega)]
    omega
  · rw [if_neg (by omega), if_pos (by omega)]
    bv_omega

/-- Settles O41: the two directions of R186. -/
theorem charValInvertsDigitChar : Obligations.CharValInvertsDigitChar :=
  ⟨fun d => ⟨charVal_digitChar d.isLt, charVal_digitChar (b := .octal), charVal_digitChar (b := .binary)⟩, fun _ _ => digitChar_of_charVal_hex⟩

end Sys2Proof.Machine
end

section
/-! PROOFS for 60_exceptions.md: every operation fails exactly under the rows of its failure table (R201), and a request
with a reserved `op` is refused and has no failure kind (R213). -/

namespace Sys2Proof.Machine

open Sys2Proof.Safety

/-! ## The reserved codes -/

/-- The `op` code 6 decodes to the first reserved row. -/
theorem decode_of_op_reserved6 {r : Request} (h : r.op = 6#3) : decode r = .reserved6 := by
  simp [decode, h]

/-- The `op` code 7 decodes to the second reserved row. -/
theorem decode_of_op_reserved7 {r : Request} (h : r.op = 7#3) : decode r = .reserved7 := by
  simp [decode, h]

/-- Settles O6: the two codes decode to the reserved rows, whose meaning is their refusal. -/
theorem reservedCodesAreRefused : Obligations.ReservedCodesAreRefused := by
  refine ⟨fun s => ⟨rfl, rfl⟩, fun s hop => ?_⟩
  rw [step, State.presented_eq]
  rcases hop with h | h
  · rw [decode_of_op_reserved6 h, h]
    exact ⟨rfl, rfl⟩
  · rw [decode_of_op_reserved7 h, h]
    exact ⟨rfl, rfl⟩

/-! ## The encode operations' row -/

/-- `OVF` is 1 outside the Signed32 range. -/
theorem ovf_of_not_inSigned32 {v : Int} (h : ¬ inSigned32 v) : ovf v = true := by
  rwa [← ovf_eq_false_iff, Bool.not_eq_false] at h

/-- ENCBIN fails outside the Signed32 range: neither special case of its first two steps is there. -/
theorem encodeBinary32_of_not_inSigned32 {n : Int} (h : ¬ inSigned32 n) :
    encodeBinary32 n = .error .overflowError := by
  have hzero : n ≠ 0 := by
    rintro rfl
    exact h (by decide)
  have hmin : n ≠ int32Min := by
    rintro rfl
    exact h (by decide)
  rw [encodeBinary32, if_neg hzero, if_neg hmin, if_pos (ovf_of_not_inSigned32 h)]

/-- ENCOCT fails outside the Signed32 range. -/
theorem encodeOctal32_of_not_inSigned32 {n : Int} (h : ¬ inSigned32 n) :
    encodeOctal32 n = .error .overflowError := by
  rw [encodeOctal32, if_pos (ovf_of_not_inSigned32 h)]

/-- ENCHEX fails outside the Signed32 range. -/
theorem encodeHex32_of_not_inSigned32 {n : Int} (h : ¬ inSigned32 n) :
    encodeHex32 n = .error .overflowError := by
  rw [encodeHex32, if_pos (ovf_of_not_inSigned32 h)]

/-- An encode operation that returns a string in the Signed32 range and fails with OverflowError outside it shows on
`status` which of the two its operand was. -/
theorem deliverChars_status {encoder : Int → Except FailureKind (List CharCode)} {string : Int → List CharCode}
    (hok : ∀ {v}, inSigned32 v → encoder v = .ok (string v))
    (hfail : ∀ {v}, ¬ inSigned32 v → encoder v = .error .overflowError) (v : Int) (s : State) :
    ∃ r : Response, s.deliverChars (encoder v) = answered s r ∧
      (r.status = 0b00#2 ∨ r.status = 0b11#2) ∧ (r.status = 0b11#2 ↔ ¬ inSigned32 v) := by
  by_cases h : inSigned32 v
  · rw [hok h]
    exact ⟨.ofChars (string v), rfl, .inl rfl, by simp, fun hout => absurd h hout⟩
  · rw [hfail h]
    exact ⟨.failure .overflowError, rfl, .inr rfl, fun _ => h, fun _ => rfl⟩

/-! ## The decode operations' rows -/

/-- A decode result whose failures are those of `row` shows on `status` which row the operand was under (R204). -/
theorem deliverSigned_status {result : Except FailureKind Int} {row : FailureKind → Prop}
    (hrow : ∀ kind, result = .error kind ↔ row kind) (s : State) :
    ∃ r : Response, s.deliverSigned result = answered s r ∧ ∀ kind, r.status = statusOf kind ↔ row kind := by
  simp only [← hrow]
  cases result with
  | ok v => exact ⟨.ofSigned v, rfl, fun kind => by simpa using (statusOf_ne_ok kind).symm⟩
  | error raised =>
    refine ⟨.failure raised, rfl, fun kind => ?_⟩
    cases raised <;> cases kind <;> decide

/-- The rows of R201 for an octal or hexadecimal decode, by the kind each row gives: `good` is the alphabet, `limit` the
greatest value that the policy returns. -/
def FailureRow (good : CharCode → Prop) (radix limit : Nat) (str : StringOperand) : FailureKind → Prop
  | .invalidArgument => str = none ∨ str = some []
  | .formatError => ∃ cs, str = some cs ∧ 1 ≤ cs.length ∧ ∃ c ∈ cs, ¬ good c
  | .overflowError => ∃ cs, str = some cs ∧ 1 ≤ cs.length ∧ (∀ c ∈ cs, good c) ∧ limit < numeral radix cs

/-- The rows of R201 for DECBIN, by the kind each row gives; the length is tested before the alphabet. -/
def BinaryFailureRow (str : StringOperand) : FailureKind → Prop
  | .overflowError => ∃ cs, str = some cs ∧ 32 < cs.length
  | .invalidArgument => str = none ∨ str = some []
  | .formatError => ∃ cs, str = some cs ∧ 1 ≤ cs.length ∧ cs.length ≤ 32 ∧ ∃ c ∈ cs, ¬ binaryChar c

/-- The greatest value that a decode policy returns (42_octal.md rule R136, 43_hex.md rule R156). -/
def policyLimit : DecodePolicy → Nat
  | .magnitude => 2147483647
  | .wrap => 4294967295

/-- A policy fails above its limit, with OverflowError alone. -/
theorem signedUnderPolicy_eq_error_iff (policy : DecodePolicy) (u : Nat) (kind : FailureKind) :
    signedUnderPolicy policy u = .error kind ↔ kind = .overflowError ∧ policyLimit policy < u := by
  cases policy with
  | magnitude =>
    rw [signedUnderPolicy_magnitude, policyLimit]
    split <;> simp [*, eq_comm]
  | wrap =>
    rw [signedUnderPolicy_wrap, policyLimit]
    split <;> simp [*, eq_comm]

/-- Under which rows an octal or hexadecimal string is: which characters it has decides between FormatError and
OverflowError. -/
theorem failureRow_some_iff {good : CharCode → Prop} {cs : List CharCode} (hne : cs ≠ []) (radix limit : Nat)
    (kind : FailureKind) :
    FailureRow good radix limit (some cs) kind ↔
      (kind = .formatError ∧ ∃ c ∈ cs, ¬ good c) ∨
      (kind = .overflowError ∧ (∀ c ∈ cs, good c) ∧ limit < numeral radix cs) := by
  have hpos : 1 ≤ cs.length := List.length_pos_of_ne_nil hne
  cases kind with
  | invalidArgument => simp [FailureRow, hne]
  | formatError => simp [FailureRow, hpos]
  | overflowError => simp [FailureRow, hpos]

/-- Under which rows a binary string is: its length decides between OverflowError and FormatError. -/
theorem binaryFailureRow_some_iff {cs : List CharCode} (hne : cs ≠ []) (kind : FailureKind) :
    BinaryFailureRow (some cs) kind ↔
      (kind = .overflowError ∧ 32 < cs.length) ∨
      (kind = .formatError ∧ cs.length ≤ 32 ∧ ∃ c ∈ cs, ¬ binaryChar c) := by
  have hpos : 1 ≤ cs.length := List.length_pos_of_ne_nil hne
  cases kind with
  | invalidArgument => simp [BinaryFailureRow, hne]
  | formatError => simp [BinaryFailureRow, hpos]
  | overflowError => simp [BinaryFailureRow]

/-- A decode that refuses a null or empty string, then one outside its alphabet, and leaves the value of any other to a
policy fails exactly under its rows: the rows part the strings as those checks do. -/
theorem eq_error_iff_failureRow {decoder : StringOperand → Except FailureKind Int} {good : CharCode → Prop}
    {radix : Nat} {policy : DecodePolicy} (hnull : decoder none = .error .invalidArgument)
    (hempty : decoder (some []) = .error .invalidArgument)
    (hbad : ∀ {cs}, (∃ c ∈ cs, ¬ good c) → decoder (some cs) = .error .formatError)
    (hgood : ∀ {cs}, cs ≠ [] → (∀ c ∈ cs, good c) → decoder (some cs) = signedUnderPolicy policy (numeral radix cs))
    (str : StringOperand) (kind : FailureKind) :
    decoder str = .error kind ↔ FailureRow good radix (policyLimit policy) str kind := by
  rcases str with _ | cs
  · rw [hnull]; cases kind <;> simp [FailureRow]
  by_cases hne : cs = []
  · rw [hne, hempty]; cases kind <;> simp [FailureRow]
  rw [failureRow_some_iff hne]
  by_cases hwrong : ∃ c ∈ cs, ¬ good c
  · have hnot : ¬ ∀ c ∈ cs, good c := by simpa only [not_forall, exists_prop] using hwrong
    simp only [hbad hwrong, hwrong, hnot, and_true, and_false, false_and, or_false, Except.error.injEq, eq_comm]
  · have hall : ∀ c ∈ cs, good c := by simpa only [not_exists, not_and, not_not] using hwrong
    rw [hgood hne hall, signedUnderPolicy_eq_error_iff, and_iff_right hall]
    simp only [hwrong, and_false, false_or]

/-- DECOCT fails exactly under its rows, under either policy. -/
theorem decodeOctal32_eq_error_iff (policy : DecodePolicy) (str : StringOperand) (kind : FailureKind) :
    decodeOctal32 policy str = .error kind ↔ FailureRow octalChar 8 (policyLimit policy) str kind :=
  eq_error_iff_failureRow rfl rfl (decodeOctal32_of_bad_char policy) (decodeOctal32_of_octalChars policy) str kind

/-- DECHEX fails exactly under its rows, under either policy. -/
theorem decodeHex32_eq_error_iff (policy : DecodePolicy) (str : StringOperand) (kind : FailureKind) :
    decodeHex32 policy str = .error kind ↔ FailureRow hexChar 16 (policyLimit policy) str kind :=
  eq_error_iff_failureRow rfl rfl (decodeHex32_of_bad_char policy) (decodeHex32_of_hexChars policy) str kind

/-- DECBIN fails exactly under its rows: at most 32 characters of its alphabet always have a signed reading. -/
theorem decodeBinary32_eq_error_iff (str : StringOperand) (kind : FailureKind) :
    decodeBinary32 str = .error kind ↔ BinaryFailureRow str kind := by
  rcases str with _ | cs
  · have hnull : decodeBinary32 none = .error .invalidArgument := rfl
    rw [hnull]; cases kind <;> simp [BinaryFailureRow]
  by_cases hne : cs = []
  · have hempty : decodeBinary32 (some []) = .error .invalidArgument := rfl
    rw [hne, hempty]; cases kind <;> simp [BinaryFailureRow]
  rw [binaryFailureRow_some_iff hne]
  rcases Nat.lt_or_ge 32 cs.length with hlong | hshort
  · simp only [decodeBinary32_of_length_gt hlong, hlong, hlong.not_ge, and_true, false_and, and_false, or_false,
      Except.error.injEq, eq_comm]
  by_cases hwrong : ∃ c ∈ cs, ¬ binaryChar c
  · simp only [decodeBinary32_of_bad_char hshort hwrong, hwrong, hshort, hshort.not_gt, and_true, and_false, false_or,
      Except.error.injEq, eq_comm]
  · have hall : ∀ c ∈ cs, binaryChar c := by simpa only [not_exists, not_and, not_not] using hwrong
    simp only [decodeBinary32_of_binaryChars hne hshort hall, hwrong, hshort.not_gt, and_false, or_false, reduceCtorEq]

/-- Settles O29: each operation's status by its rows. -/
theorem failureTableIsExhaustive : Obligations.FailureTableIsExhaustive := by
  intro s
  refine ⟨fun n => ?_, fun str => ?_, fun str => ?_, fun str => ?_,
    fun str => decodeOctal32_eq_error_iff .wrap str .overflowError,
    fun str => decodeHex32_eq_error_iff .magnitude str .overflowError⟩
  · obtain ⟨rb, hbin, hrb⟩ := deliverChars_status encodeBinary32_of_inSigned32 encodeBinary32_of_not_inSigned32 n.toInt s
    obtain ⟨ro, hoct, hro⟩ := deliverChars_status encodeOctal32_of_inSigned32 encodeOctal32_of_not_inSigned32 n.toInt s
    obtain ⟨rh, hhex, hrh⟩ := deliverChars_status encodeHex32_of_inSigned32 encodeHex32_of_not_inSigned32 n.toInt s
    refine ⟨rb, ro, rh, congrArg _ hbin, congrArg _ hoct, congrArg _ hhex, ?_⟩
    simpa only [List.forall_mem_cons, List.not_mem_nil, false_implies, implies_true, and_true] using ⟨hrb, hro, hrh⟩
  · obtain ⟨r, hr, hrow⟩ := deliverSigned_status (decodeBinary32_eq_error_iff str) s
    exact ⟨r, congrArg _ hr, hrow .overflowError, hrow .invalidArgument, hrow .formatError⟩
  · obtain ⟨r, hr, hrow⟩ := deliverSigned_status (decodeOctal32_eq_error_iff .magnitude str) s
    exact ⟨r, congrArg _ hr, hrow .invalidArgument, hrow .formatError, hrow .overflowError⟩
  · obtain ⟨r, hr, hrow⟩ := deliverSigned_status (decodeHex32_eq_error_iff .wrap str) s
    exact ⟨r, congrArg _ hr, hrow .invalidArgument, hrow .formatError, hrow .overflowError⟩

end Sys2Proof.Machine
end

section
/-! PROOFS for 70_reset_and_hazards.md: the caller's copy of a result string keeps every counted slot, and the copy of a
failed step's response is the empty string, which every decode operation rejects (R245). -/

namespace Sys2Proof.Machine

open Sys2Proof.Safety

/-! ## The caller's copy -/

/-- A counted slot of the copy carries the character of the same slot of the response: no reversal (R245). -/
theorem chainString_sChar_getElem? {r : Response} (op : OpCode) {k : Nat} (hlen : r.rLen.toNat ≤ 32)
    (hk : k < r.rLen.toNat) : (r.chainString op).sChar[k]? = r.rChar[k]? := by
  have hin : k < 63 := by omega
  have hout : k < 32 := by omega
  have hslot : (r.chainString op).sChar[k] = (r.rChar.toList.take r.rLen.toNat).getD k 0x00#8 :=
    slotsOf_getElem _ 63 k hin
  rw [Vector.getElem?_eq_getElem hin, Vector.getElem?_eq_getElem hout, hslot]
  simp [List.getD_eq_getElem?_getD, hk, hout]

/-- The copy of a response without characters presents the empty string, not a null one (30_encoding.md rule R64). -/
theorem stringOperand_chainString_of_rLen_eq_zero {r : Response} (op : OpCode) (h : r.rLen = 0) :
    (r.chainString op).stringOperand = some [] := by
  simp [Request.stringOperand, Response.chainString, h]

/-! ## The empty string after a failure -/

/-- A step whose status is not 00 drove the response of a failure kind (60_exceptions.md rule R204). -/
theorem response_eq_failure_of_status_ne_ok {s t : State} (hstep : step s = .next t)
    (hstatus : t.response.status ≠ 0b00#2) : ∃ kind, t.response = .failure kind := by
  rw [step] at hstep
  rcases exec_cases (decode s.presented) s with ⟨-, ⟨cs, h⟩ | ⟨v, h⟩ | ⟨kind, h⟩⟩ | ⟨-, op, h⟩ <;>
    rw [h] at hstep <;> cases hstep
  · exact absurd (Response.ofChars_status cs) hstatus
  · exact absurd (Response.ofSigned_status v) hstatus
  · exact ⟨kind, rfl⟩

/-- Every decode operation rejects the empty string with InvalidArgument (60_exceptions.md rule R201). -/
theorem step_of_stringOperand_empty {s : State} (hop : s.request.op = 1#3 ∨ s.request.op = 3#3 ∨ s.request.op = 5#3)
    (hempty : s.request.stringOperand = some []) : step s = .next (answered s (failureAnswer 0b01#2)) := by
  rcases hop with hbin | hoct | hhex
  · rw [step_of_op_decbin hbin, hempty]
    exact exec_decbin_of_error s (kind := .invalidArgument) rfl
  · rw [step_of_op_decoct hoct, hempty]
    exact exec_decoct_of_error s (kind := .invalidArgument) rfl
  · rw [step_of_op_dechex hhex, hempty]
    exact exec_dechex_of_error s (kind := .invalidArgument) rfl

/-- Settles O35: a failure counts no character, so its copy is the empty string. -/
theorem chainingCopiesTheResultString : Obligations.ChainingCopiesTheResultString := by
  refine ⟨fun r op hlen => ⟨rfl, rfl, rfl, fun k hk => chainString_sChar_getElem? op hlen hk⟩,
    fun s t hstep hstatus op hop => ?_⟩
  obtain ⟨kind, hfail⟩ := response_eq_failure_of_status_ne_ok hstep hstatus
  have hlen : t.response.rLen = 0 := by rw [hfail, Response.failure_rLen]
  exact ⟨_, step_of_stringOperand_empty hop (stringOperand_chainString_of_rLen_eq_zero op hlen), rfl⟩

end Sys2Proof.Machine
end

section
/-! PROOFS for 30_encoding.md sections 1 to 3: decoding undoes encoding (R60 to R64), and encoding what was decoded keeps
the ports that the format reads. -/

namespace Sys2Proof.Machine

/-! ## What each code of the six operations decodes to -/

/-- The `op` code 0 decodes to ENCBIN of the integer port. -/
theorem decode_of_op_encbin {r : Request} (h : r.op = 0#3) : decode r = .encbin r.n := by
  simp [decode, h]

/-- The `op` code 1 decodes to DECBIN of the string ports. -/
theorem decode_of_op_decbin {r : Request} (h : r.op = 1#3) : decode r = .decbin r.stringOperand := by
  simp [decode, h]

/-- The `op` code 2 decodes to ENCOCT of the integer port. -/
theorem decode_of_op_encoct {r : Request} (h : r.op = 2#3) : decode r = .encoct r.n := by
  simp [decode, h]

/-- The `op` code 3 decodes to DECOCT of the string ports. -/
theorem decode_of_op_decoct {r : Request} (h : r.op = 3#3) : decode r = .decoct r.stringOperand := by
  simp [decode, h]

/-- The `op` code 4 decodes to ENCHEX of the integer port. -/
theorem decode_of_op_enchex {r : Request} (h : r.op = 4#3) : decode r = .enchex r.n := by
  simp [decode, h]

/-- The `op` code 5 decodes to DECHEX of the string ports. -/
theorem decode_of_op_dechex {r : Request} (h : r.op = 5#3) : decode r = .dechex r.stringOperand := by
  simp [decode, h]

/-! ## Decoding what was encoded -/

/-- A string operand that fits the port, null included, is read back from the ports that present it (R64). -/
theorem stringOperand_ofString_of_fitsPort (op : OpCode) {str : StringOperand} (h : fitsPort str = true) :
    (Request.ofString op str).stringOperand = str := by
  cases str with
  | none => rfl
  | some cs => exact stringOperand_ofString op (of_decide_eq_true h)

/-- Settles O1: each row's `op` code selects its constructor, and its operand is read back from the ports. -/
theorem decodeEncodeAgree : Obligations.DecodeEncodeAgree := by
  intro i hfits
  cases i with
  | encbin n => exact decode_of_op_encbin rfl
  | encoct n => exact decode_of_op_encoct rfl
  | enchex n => exact decode_of_op_enchex rfl
  | decbin str =>
    rw [encode, decode_of_op_decbin (Request.ofString_op 1#3 str), stringOperand_ofString_of_fitsPort 1#3 hfits]
  | decoct str =>
    rw [encode, decode_of_op_decoct (Request.ofString_op 3#3 str), stringOperand_ofString_of_fitsPort 3#3 hfits]
  | dechex str =>
    rw [encode, decode_of_op_dechex (Request.ofString_op 5#3 str), stringOperand_ofString_of_fitsPort 5#3 hfits]
  | reserved6 => exact decode_of_op_reserved6 rfl
  | reserved7 => exact decode_of_op_reserved7 rfl

/-! ## Encoding what was decoded -/

/-- A request of format ENC, port by port. -/
theorem ofInteger_eq (op : OpCode) (n : Operand) :
    Request.ofInteger op n =
      { op := op, n := n, sPresent := false, sLen := 0#6, sChar := Vector.replicate 63 0x00#8 } := by
  rw [Request.ofInteger, Request.ofOp, slotsOf_nil]
  rfl

/-- A request that drives `op` alone, port by port. -/
theorem ofOp_eq (op : OpCode) :
    Request.ofOp op =
      { op := op, n := 0#64, sPresent := false, sLen := 0#6, sChar := Vector.replicate 63 0x00#8 } :=
  ofInteger_eq op 0#64

/-- The string on the ports has as many characters as the length port counts: there are `2^6 - 1` slots (R64). -/
theorem length_take_sChar (r : Request) : (r.sChar.toList.take r.sLen.toNat).length = r.sLen.toNat := by
  have hslots : r.sLen.toNat ≤ 63 := by omega
  simpa using hslots

/-- The slots that hold the counted characters of a request, with nothing after them. -/
theorem slotsOf_take_sChar (r : Request) :
    slotsOf 63 (r.sChar.toList.take r.sLen.toNat) =
      Vector.ofFn fun k => if k.val < r.sLen.toNat then r.sChar[k] else 0x00#8 := by
  ext k hk
  rw [slotsOf_getElem, Vector.getElem_ofFn, List.getD_eq_getElem?_getD, List.getElem?_take]
  split <;> simp [hk]

/-- The request of format DEC that presents the string operand of `r`: the counted slots when there is one. -/
theorem ofString_stringOperand (op : OpCode) (r : Request) :
    Request.ofString op r.stringOperand =
      if r.sPresent then
        { op := op, n := 0#64, sPresent := true, sLen := r.sLen,
          sChar := Vector.ofFn fun k => if k.val < r.sLen.toNat then r.sChar[k] else 0x00#8 }
      else { op := op, n := 0#64, sPresent := false, sLen := 0#6, sChar := Vector.replicate 63 0x00#8 } := by
  cases hpresent : r.sPresent with
  | false => rw [stringOperand_of_absent hpresent]; exact ofOp_eq op
  | true =>
    rw [Request.stringOperand, hpresent, if_pos rfl, Request.ofString, length_take_sChar, slotsOf_take_sChar,
      BitVec.ofNat_toNat, BitVec.setWidth_eq]
    rfl

/-- Settles O2: by `op` code, the request of the operand that was read. -/
theorem encodeDecodeKeepsUsedPorts : Obligations.EncodeDecodeKeepsUsedPorts := by
  refine fun r => ⟨fun hop => ?_, fun hop => ?_, fun hop => ?_⟩
  · rw [← ofInteger_eq]
    rcases hop with h | h | h
    · rw [decode_of_op_encbin h, h, encode]
    · rw [decode_of_op_encoct h, h, encode]
    · rw [decode_of_op_enchex h, h, encode]
  · rw [← ofString_stringOperand]
    rcases hop with h | h | h
    · rw [decode_of_op_decbin h, h, encode]
    · rw [decode_of_op_decoct h, h, encode]
    · rw [decode_of_op_dechex h, h, encode]
  · rw [← ofOp_eq]
    rcases hop with h | h
    · rw [decode_of_op_reserved6 h, h, encode]
    · rw [decode_of_op_reserved7 h, h, encode]

/-- The request of a table word is the one that encodes the row's instruction with its operand ports at 0. -/
theorem decodeTableWord_of_encode {w : Nat} {i : Instr} (hword : requestOfWord 8 w = encode i)
    (hfits : i.presentable = true) : decodeTableWord 8 w = some i := by
  rw [decodeTableWord, hword, decodeEncodeAgree i hfits]

/-- Settles O3: each word presents its row's instruction, and the full request's three counted slots are its string. -/
theorem tableWordsDecodeToTheirRows : Obligations.TableWordsDecodeToTheirRows := by
  refine ⟨?_, ?_, ?_, ?_, ?_, ?_, ?_, ?_, decode_of_op_decbin rfl⟩ <;> exact decodeTableWord_of_encode rfl rfl

end Sys2Proof.Machine
end

section
/-! PROOFS for 20_memory.md sections 4 and 6 and 70_reset_and_hazards.md section 1: a step is a function of the request
ports alone, so it settles the ports (R47, R240) and a script's responses do not depend on what came before (R20, R49). -/

namespace Sys2Proof.Machine

open Sys2Proof.Safety

/-! ## What a step can do -/

/-- A reserved instruction is refused for the same reason in every state (R72). -/
theorem exec_refused (i : Instr) (hi : i.reserved = true) : ∃ why, ∀ s, exec i s = .refused why := by
  cases i with
  | reserved6 => exact ⟨_, fun _ => rfl⟩
  | reserved7 => exact ⟨_, fun _ => rfl⟩
  | encbin _ | decbin _ | encoct _ | decoct _ | enchex _ | dechex _ => cases hi

/-- A request has one outcome: a response, with the request ports as they were, or a refusal (R20, R74). -/
theorem step_of_request (q : Request) :
    (∃ r, ∀ s : State, s.request = q → step s = .next (answered s r)) ∨
    (∃ why, ∀ s : State, s.request = q → step s = .refused why) := by
  cases h : (decode q).reserved with
  | false =>
    obtain ⟨r, hr⟩ := exec_answers _ h
    exact .inl ⟨r, fun s hs => by rw [step, State.presented_eq, hs, hr]⟩
  | true =>
    obtain ⟨why, hwhy⟩ := exec_refused _ h
    exact .inr ⟨why, fun s hs => by rw [step, State.presented_eq, hs, hwhy]⟩

/-- A step that answers a next state drives the response ports alone, and answers the same in every state with the same
request. -/
theorem step_eq_next_cases {s t : State} (h : step s = .next t) :
    ∃ r, t = answered s r ∧ ∀ s' : State, s'.request = s.request → step s' = .next (answered s' r) := by
  rcases step_of_request s.request with ⟨r, hr⟩ | ⟨why, hwhy⟩
  · rw [hr s rfl] at h
    injection h with h
    exact ⟨r, h.symm, hr⟩
  · rw [hwhy s rfl] at h
    cases h

/-- Settles O4: a step adds nothing to exec of the decoded instruction, and a placed word is on the request ports. -/
theorem stepRunsTheDecodedInstruction : Obligations.StepRunsTheDecodedInstruction := by
  refine ⟨fun s i hdecode => ?_, fun s nbits w i hword => ⟨?_, rfl⟩, fun s t hstep => ?_⟩
  · rw [step, State.presented_eq, hdecode]
  · injection hword with hdecode
    rw [step, State.presented_eq, State.withFetchWord_request, hdecode]
  · obtain ⟨r, rfl, -⟩ := step_eq_next_cases hstep
    rfl

/-- Settles O8: the state after a step has the same request, so the next step drives the same response. -/
theorem stepLeavesPortsSettled : Obligations.StepLeavesPortsSettled := by
  intro s t hstep
  obtain ⟨r, rfl, hsame⟩ := step_eq_next_cases hstep
  exact hsame (answered s r) rfl

/-- Settles O9: the response ports carry the rendering of 0, which is what ENCBIN of the request's operand drives. -/
theorem resetIsSettled : Obligations.ResetIsSettled := by
  have hresponse : State.reset.response = stringAnswer (List.replicate 32 0x30#8) := by decide
  refine ⟨?_, rfl, hresponse⟩
  have hzero : bitString (BitVec.ofInt 32 0) = List.replicate 32 0x30#8 := by decide
  rw [Settled, step_of_op_encbin rfl, exec_encbin_of_inSigned32 _ (by decide)]
  exact congrArg (fun r => Host.Outcome.next (answered State.reset r)) ((congrArg stringAnswer hzero).trans hresponse.symm)

/-! ## Scripts -/

/-- A transaction has one outcome whatever was on the ports before it, and its next state has nothing of them (R49). -/
theorem transact_eq (s s' : State) (q : Request) : transact s q = transact s' q := by
  rcases step_of_request q with ⟨r, hr⟩ | ⟨why, hwhy⟩
  · exact (hr (s.drive q) rfl).trans (hr (s'.drive q) rfl).symm
  · exact (hwhy (s.drive q) rfl).trans (hwhy (s'.drive q) rfl).symm

/-- The responses to a script do not depend on the ports before it. -/
theorem transcript_eq (s s' : State) (rs : List Request) : transcript s rs = transcript s' rs := by
  induction rs generalizing s s' with
  | nil => rfl
  | cons q rs ih => rw [transcript, transcript, transact_eq s s', ih (portsAfter s q) (portsAfter s' q)]

/-- A script after another is answered from the ports that the first one leaves, which do not matter. -/
theorem transcript_append (s s' : State) (rs qs : List Request) :
    transcript s (rs ++ qs) = transcript s rs ++ transcript s' qs := by
  induction rs generalizing s with
  | nil => exact transcript_eq s s' qs
  | cons q rs ih => rw [List.cons_append, transcript, transcript, ih, List.cons_append]

/-- Settles O10: each transaction of a script has the outcome it has alone. -/
theorem responsesDoNotDependOnHistory : Obligations.ResponsesDoNotDependOnHistory :=
  fun s s' rs qs => ⟨transcript_eq s s' rs, transcript_append s s' rs qs⟩

end Sys2Proof.Machine
end

section
/-! PROOFS for the encode operations together (41_binary.md, 42_octal.md and 43_hex.md section 1): each writes the padded
numeral of its operand's pattern in its base or fails with OverflowError (R201), and the groupers cut ENCBIN's string
(20_memory.md rule R44). -/

namespace Sys2Proof.Machine

open Sys2Proof.Safety

/-! ## The answer of an encode operation, in any base -/

/-- What an encode operation of `count` characters in a base answers: the numeral of the operand's pattern, or row 3 of
the response table for OverflowError. -/
def encodeAnswer (radix count : Nat) (v : Int) : Response :=
  if inSigned32 v then stringAnswer (paddedNumeral radix count (unsigned32 v)) else failureAnswer 0b11#2

/-- In the Signed32 range: the numeral. -/
theorem encodeAnswer_of_inSigned32 {v : Int} (radix count : Nat) (h : inSigned32 v) :
    encodeAnswer radix count v = stringAnswer (paddedNumeral radix count (unsigned32 v)) := if_pos h

/-- Outside the Signed32 range: the failure. -/
theorem encodeAnswer_of_not_inSigned32 {v : Int} (radix count : Nat) (h : ¬ inSigned32 v) :
    encodeAnswer radix count v = failureAnswer 0b11#2 := if_neg h

/-- An encoder that writes the pattern's numeral in the Signed32 range and fails with OverflowError outside it delivers
that answer. -/
theorem deliverChars_encodeAnswer {encoder : Int → Except FailureKind (List CharCode)} {radix count : Nat}
    (hok : ∀ {v}, inSigned32 v → encoder v = .ok (paddedNumeral radix count (unsigned32 v)))
    (hfail : ∀ {v}, ¬ inSigned32 v → encoder v = .error .overflowError) (v : Int) (s : State) :
    s.deliverChars (encoder v) = answered s (encodeAnswer radix count v) := by
  by_cases h : inSigned32 v
  · rw [hok h, encodeAnswer_of_inSigned32 _ _ h, State.deliverChars_ok, ofChars_eq_stringAnswer]
    rfl
  · rw [hfail h, encodeAnswer_of_not_inSigned32 _ _ h]
    exact congrArg (answered s) (failure_eq_failureAnswer .overflowError)

/-- ENCBIN's string is the 32-digit base-2 numeral of the pattern. -/
theorem encodeBinary32_eq_paddedNumeral {v : Int} (h : inSigned32 v) :
    encodeBinary32 v = .ok (paddedNumeral 2 32 (unsigned32 v)) := by
  rw [encodeBinary32_of_inSigned32 h, bitString_eq_paddedNumeral, toNat_ofInt_eq_unsigned32]

/-- What ENCBIN answers. -/
theorem exec_encbin_eq (n : Operand) (s : State) :
    exec (.encbin n) s = .next (answered s (encodeAnswer 2 32 n.toInt)) :=
  congrArg _ (deliverChars_encodeAnswer encodeBinary32_eq_paddedNumeral encodeBinary32_of_not_inSigned32 n.toInt s)

/-- What ENCOCT answers. -/
theorem exec_encoct_eq (n : Operand) (s : State) :
    exec (.encoct n) s = .next (answered s (encodeAnswer 8 11 n.toInt)) :=
  congrArg _ (deliverChars_encodeAnswer encodeOctal32_of_inSigned32 encodeOctal32_of_not_inSigned32 n.toInt s)

/-- What ENCHEX answers. -/
theorem exec_enchex_eq (n : Operand) (s : State) :
    exec (.enchex n) s = .next (answered s (encodeAnswer 16 8 n.toInt)) :=
  congrArg _ (deliverChars_encodeAnswer encodeHex32_of_inSigned32 encodeHex32_of_not_inSigned32 n.toInt s)

/-- Settles O18: the failing branch of each operation's answer. -/
theorem encodersRejectOutOfRange : Obligations.EncodersRejectOutOfRange := by
  intro n s h
  rw [exec_encbin_eq, exec_encoct_eq, exec_enchex_eq]
  simp only [encodeAnswer_of_not_inSigned32 _ _ h, and_self]

/-- The pattern of a word's signed reading is the word. -/
theorem unsigned32_toInt (v : Word32) : unsigned32 v.toInt = v.toNat := by
  rw [← toNat_ofInt_eq_unsigned32, BitVec.ofInt_toInt]

/-- Settles O19: a sign-extended word is in range and its pattern is the word. -/
theorem signExtendedWordsAlwaysEncode : Obligations.SignExtendedWordsAlwaysEncode := by
  intro v s
  obtain ⟨hkeep, hrange⟩ := toInt_signExtend_word v
  have hnumeral (radix count : Nat) :
      encodeAnswer radix count (v.signExtend 64).toInt = stringAnswer (paddedNumeral radix count v.toNat) := by
    rw [encodeAnswer_of_inSigned32 _ _ hrange, hkeep, unsigned32_toInt]
  rw [exec_encbin_eq, exec_encoct_eq, exec_enchex_eq, hnumeral, hnumeral, hnumeral, ← bitString_eq_paddedNumeral]
  exact ⟨rfl, rfl, rfl⟩

/-! ## The steps of ENCBIN -/

/-- Settles O20: the magnitude is at most `2^31`, and the vector after the negation is the pattern that is rendered. -/
theorem encoderStepsAgreeWithClosedForm : Obligations.EncoderStepsAgreeWithClosedForm := by
  intro n h
  obtain ⟨hmin, hmax⟩ := h
  refine ⟨?_, encoderVector_eq_ofInt n, ?_⟩
  · rw [magnitudeBits_eq_ofNat, BitVec.toNat_ofNat]
    exact Nat.mod_eq_of_lt (by omega)
  · rw [encodeBinary32_of_inSigned32 ⟨hmin, hmax⟩, encoderVector_eq_ofInt, render_bitValue]

/-! ## The groupers -/

/-- Consecutive characters of a padded numeral are the padded numeral of the number without the places after them. -/
theorem take_drop_paddedNumeral (radix u : Nat) (skip len after : Nat) :
    ((paddedNumeral radix (skip + len + after) u).drop skip).take len = paddedNumeral radix len (u / radix ^ after) := by
  apply List.ext_getElem
  · simp
    omega
  · intro k _ hk
    have hk : k < len := by simpa using hk
    have hplace : skip + len + after - 1 - (skip + k) = after + (len - 1 - k) := by omega
    simp only [paddedNumeral, List.getElem_take, List.getElem_drop, List.getElem_map, List.getElem_range, hplace,
      pow_add, Nat.div_div_eq_div_mul]

/-- The number that consecutive bits of a 32-digit base-2 numeral write. -/
theorem numeral_take_drop_paddedNumeral_two (u : Nat) {skip len after : Nat} (h : skip + len + after = 32) :
    numeral 2 (((paddedNumeral 2 32 u).drop skip).take len) = u / 2 ^ after % 2 ^ len := by
  rw [← h, take_drop_paddedNumeral, numeral_paddedNumeral (by decide) (by decide)]

/-- A numeral in base `2^width` has one digit for each group of `width` characters of the base-2 numeral, the characters
before the first group left out (20_memory.md rule R44). -/
theorem paddedNumeral_two_pow_eq_groups (u : Nat) {lead width count : Nat} (h : lead + width * count = 32) :
    paddedNumeral (2 ^ width) count u =
      (List.range count).map fun k =>
        digitCode (numeral 2 (((paddedNumeral 2 32 u).drop (lead + width * k)).take width)) := by
  refine List.map_congr_left fun k hk => ?_
  have hk : k < count := List.mem_range.1 hk
  obtain ⟨rest, rfl⟩ : ∃ rest, count = k + 1 + rest := Nat.exists_eq_add_of_le hk
  have hplaces : k + 1 + rest - 1 - k = rest := by omega
  have hafter : lead + width * k + width + width * rest = 32 := by rw [← h]; ring
  rw [numeral_take_drop_paddedNumeral_two u hafter, hplaces, pow_mul]

/-- A pattern has 32 bits. -/
theorem unsigned32_lt (v : Int) : unsigned32 v < 4294967296 := by
  rw [unsigned32]
  omega

/-- The eleven octal digits of a 32-bit number: the leading two bits, then ten groups of three (42_octal.md rule
R131). -/
theorem paddedNumeral_eight_eq_groups {u : Nat} (h : u < 4294967296) :
    paddedNumeral 8 11 u =
      digitCode (numeral 2 ((paddedNumeral 2 32 u).take 2)) ::
        (List.range 10).map fun k => digitCode (numeral 2 (((paddedNumeral 2 32 u).drop (2 + 3 * k)).take 3)) := by
  have htop : numeral 2 ((paddedNumeral 2 32 u).take 2) = u / 8 ^ 10 % 8 := by
    have hbits := numeral_take_drop_paddedNumeral_two u (skip := 0) (len := 2) (after := 30) rfl
    rw [List.drop_zero] at hbits
    omega
  rw [paddedNumeral_succ_eq_cons, htop, ← paddedNumeral_two_pow_eq_groups u (lead := 2) (width := 3) (count := 10) rfl]
  rfl

/-- The eight hexadecimal digits of a 32-bit number: groups of four bits (43_hex.md rule R150). -/
theorem paddedNumeral_sixteen_eq_groups (u : Nat) :
    paddedNumeral 16 8 u =
      (List.range 8).map fun k => digitCode (numeral 2 (((paddedNumeral 2 32 u).drop (4 * k)).take 4)) := by
  have hgroups := paddedNumeral_two_pow_eq_groups u (lead := 0) (width := 4) (count := 8) rfl
  simp only [Nat.zero_add] at hgroups
  exact hgroups

/-- Settles O21: the three strings are numerals of one 32-bit number, in bases that are powers of 2. -/
theorem groupersCutTheBinaryString : Obligations.GroupersCutTheBinaryString := by
  intro n s h
  have hlt := unsigned32_lt n.toInt
  have hvalue (radix count : Nat) (hpos : 0 < radix) (hle : radix ≤ 16) (hfits : 4294967296 ≤ radix ^ count) :
      numeral radix (paddedNumeral radix count (unsigned32 n.toInt)) = unsigned32 n.toInt := by
    rw [numeral_paddedNumeral hpos hle, Nat.mod_eq_of_lt (hlt.trans_le hfits)]
  have hbin := hvalue 2 32 (by decide) (by decide) (by decide)
  have hoct := hvalue 8 11 (by decide) (by decide) (by decide)
  have hhex := hvalue 16 8 (by decide) (by decide) (by decide)
  refine ⟨_, _, _, ?_, paddedNumeral_length 2 32 (unsigned32 n.toInt), encoctWritesElevenOctalDigits n s h,
    exec_enchex_of_inSigned32 s h, paddedNumeral_sixteen_eq_groups _, paddedNumeral_eight_eq_groups hlt,
    hoct.trans hbin.symm, hhex.trans hbin.symm⟩
  rw [exec_encbin_eq, encodeAnswer_of_inSigned32 _ _ h]

end Sys2Proof.Machine
end

section
/-! PROOFS for 30_encoding.md sections 3 and 4: what each response port carries by operation and outcome (R77), and the
three legal forms that every step answers. -/

namespace Sys2Proof.Machine

open Sys2Proof.Safety

/-! ## The outcome of a step, by the format of its operation -/

/-- Every `op` code is that of an encode operation, of a decode operation, or reserved (R62). -/
theorem op_cases (op : OpCode) :
    (op = 0#3 ∨ op = 2#3 ∨ op = 4#3) ∨ (op = 1#3 ∨ op = 3#3 ∨ op = 5#3) ∨ (op = 6#3 ∨ op = 7#3) := by
  revert op
  decide

/-- A step of an encode operation answers the numeral in one of the three bases, of the operation's length, or
OverflowError. -/
theorem step_of_encode_op {s : State} (hop : s.request.op = 0#3 ∨ s.request.op = 2#3 ∨ s.request.op = 4#3) :
    ∃ radix, 0 < radix ∧ radix ≤ 16 ∧
      step s = .next (answered s (encodeAnswer radix
        (if s.request.op = 0#3 then 32 else if s.request.op = 2#3 then 11 else 8) s.request.n.toInt)) := by
  rcases hop with h | h | h
  · rw [h]; exact ⟨2, by decide, by decide, (step_of_op_encbin h).trans (exec_encbin_eq _ s)⟩
  · rw [h]; exact ⟨8, by decide, by decide, (step_of_op_encoct h).trans (exec_encoct_eq _ s)⟩
  · rw [h]; exact ⟨16, by decide, by decide, (step_of_op_enchex h).trans (exec_enchex_eq _ s)⟩

/-- Delivering a decode result drives row 2 or row 3 of the response table. -/
theorem deliverSigned_row (result : Except FailureKind Int) (s : State) :
    (∃ v, s.deliverSigned result = answered s (integerAnswer v)) ∨
    (∃ code, code ≠ 0 ∧ s.deliverSigned result = answered s (failureAnswer code)) := by
  rcases s.deliverSigned_cases result with ⟨v, -, h⟩ | ⟨kind, -, h⟩
  · rw [ofSigned_eq_integerAnswer] at h
    exact .inl ⟨_, h⟩
  · rw [failure_eq_failureAnswer] at h
    exact .inr ⟨_, statusOf_ne_ok kind, h⟩

/-- A step of a decode operation delivers the result of its decoder. -/
theorem step_of_decode_op {s : State} (hop : s.request.op = 1#3 ∨ s.request.op = 3#3 ∨ s.request.op = 5#3) :
    ∃ result, step s = .next (s.deliverSigned result) := by
  rcases hop with h | h | h
  · exact ⟨_, step_of_op_decbin h⟩
  · exact ⟨_, step_of_op_decoct h⟩
  · exact ⟨_, step_of_op_dechex h⟩

/-- Settles O13: the two outcomes of each format, and the refusal of the reserved codes. -/
theorem responsePortsByOutcome : Obligations.ResponsePortsByOutcome := by
  refine ⟨fun s hop => ?_, fun s hop => ?_, fun s hop => ?_⟩
  · obtain ⟨radix, -, -, hstep⟩ := step_of_encode_op hop
    by_cases hrange : inSigned32 s.request.n.toInt
    · rw [encodeAnswer_of_inSigned32 _ _ hrange] at hstep
      exact .inl ⟨_, hstep, paddedNumeral_length ..⟩
    · rw [encodeAnswer_of_not_inSigned32 _ _ hrange] at hstep
      exact .inr hstep
  · obtain ⟨result, hstep⟩ := step_of_decode_op hop
    rcases deliverSigned_row result s with ⟨v, h⟩ | ⟨code, hcode, h⟩
    · exact .inl ⟨v, by rw [hstep, h]⟩
    · exact .inr ⟨code, hcode, by rw [hstep, h]⟩
  · obtain ⟨-, hrefused⟩ := reservedCodesAreRefused
    obtain ⟨-, hstep⟩ := hrefused s hop
    exact ⟨_, hstep⟩

/-! ## Legal responses -/

/-- A failure is legal. -/
theorem legalResponse_failureAnswer {code : StatusCode} (h : code ≠ 0) : LegalResponse (failureAnswer code) :=
  .inl ⟨h, rfl⟩

/-- An integer with no character is legal. -/
theorem legalResponse_integerAnswer (v : Word32) : LegalResponse (integerAnswer v) :=
  .inr (.inl rfl)

/-- The length port of a string answer counts its characters. -/
theorem toNat_stringAnswer_rLen {t : List CharCode} (h : t.length ≤ 32) : (stringAnswer t).rLen.toNat = t.length := by
  show (BitVec.ofNat 6 t.length).toNat = t.length
  rw [BitVec.toNat_ofNat]
  exact Nat.mod_eq_of_lt (by omega)

/-- A slot of a string answer: the string's character, or zero after its end. -/
theorem stringAnswer_rChar_getElem (t : List CharCode) (k : Fin 32) :
    (stringAnswer t).rChar[k] = t.getD k.val 0x00#8 :=
  Vector.getElem_ofFn _

/-- A string of one of the three lengths, of output characters alone, is legal. -/
theorem legalResponse_stringAnswer {t : List CharCode} (hlen : t.length = 32 ∨ t.length = 11 ∨ t.length = 8)
    (hchars : ∀ c ∈ t, outputChar c) : LegalResponse (stringAnswer t) := by
  have hcount : (stringAnswer t).rLen = 32 ∨ (stringAnswer t).rLen = 11 ∨ (stringAnswer t).rLen = 8 :=
    hlen.imp (congrArg (BitVec.ofNat 6)) (Or.imp (congrArg (BitVec.ofNat 6)) (congrArg (BitVec.ofNat 6)))
  refine .inr (.inr ⟨rfl, rfl, hcount, fun k => ?_⟩)
  rw [toNat_stringAnswer_rLen (by omega), stringAnswer_rChar_getElem]
  split
  case isTrue hk =>
    rw [List.getD_eq_getElem _ _ hk]
    exact hchars _ (List.getElem_mem hk)
  case isFalse hk => exact List.getD_eq_default _ _ (not_lt.1 hk)

/-- The character of a digit is one that an encode operation can emit. -/
theorem outputChar_digitCode {d : Nat} (h : d < 16) : outputChar (digitCode d) := by
  interval_cases d <;> decide

/-- A numeral in a base up to 16 is written in output characters. -/
theorem outputChar_of_mem_paddedNumeral {radix count u : Nat} (hpos : 0 < radix) (hle : radix ≤ 16) {c : CharCode}
    (h : c ∈ paddedNumeral radix count u) : outputChar c := by
  obtain ⟨k, -, rfl⟩ := List.mem_map.1 h
  exact outputChar_digitCode ((Nat.mod_lt _ hpos).trans_le hle)

/-- An encode operation's answer of one of the three lengths is legal. -/
theorem legalResponse_encodeAnswer {radix count : Nat} (hpos : 0 < radix) (hle : radix ≤ 16)
    (hcount : count = 32 ∨ count = 11 ∨ count = 8) (v : Int) : LegalResponse (encodeAnswer radix count v) := by
  by_cases hrange : inSigned32 v
  · rw [encodeAnswer_of_inSigned32 _ _ hrange]
    exact legalResponse_stringAnswer (by rwa [paddedNumeral_length]) fun _ => outputChar_of_mem_paddedNumeral hpos hle
  · rw [encodeAnswer_of_not_inSigned32 _ _ hrange]
    exact legalResponse_failureAnswer (by decide)

/-- A step that answers has driven a legal response, whatever was on the response ports. -/
theorem legalResponse_of_step {s t : State} (hstep : step s = .next t) : LegalResponse t.response := by
  obtain ⟨-, hdecode, hrefused⟩ := responsePortsByOutcome
  rcases op_cases s.request.op with hop | hop | hop
  · obtain ⟨radix, hpos, hle, hencode⟩ := step_of_encode_op hop
    cases hstep.symm.trans hencode
    exact legalResponse_encodeAnswer hpos hle (by split_ifs <;> simp) _
  · rcases hdecode s hop with ⟨v, h⟩ | ⟨code, hcode, h⟩
    · cases hstep.symm.trans h
      exact legalResponse_integerAnswer v
    · cases hstep.symm.trans h
      exact legalResponse_failureAnswer hcode
  · obtain ⟨why, h⟩ := hrefused s hop
    cases hstep.symm.trans h

/-- Settles O11: what a step answers is legal by itself. -/
theorem stepKeepsResponseLegal : Obligations.StepKeepsResponseLegal :=
  fun _ _ _ => legalResponse_of_step

/-- Settles O12: the first state is settled, so its response is what a step answers. -/
theorem resetResponseIsLegal : Obligations.ResetResponseIsLegal := by
  obtain ⟨hsettled, -⟩ := resetIsSettled
  exact legalResponse_of_step hsettled

end Sys2Proof.Machine
end

section
/-! PROOFS for leading zeros in 30_encoding.md section 3 and in section 2 of 41_binary.md, 42_octal.md and 43_hex.md: they
are digits of value 0, so they change neither the alphabet check nor the value (R69, R114, R137, R158). -/

namespace Sys2Proof.Machine

/-- A zero before a string adds the digit 0 before its digits, in every base. -/
theorem digitsOf_zero_cons (b : Base) (cs : List CharCode) :
    digitsOf b (0x30#8 :: cs) = (digitsOf b cs).map (0 :: ·) := by
  have hzero : charVal 0x30#8 b = some 0 := by cases b <;> rfl
  rw [digitsOf, hzero]
  cases digitsOf b cs <;> rfl

/-- A digit 0 in front adds nothing to the value. -/
theorem valueOf_zero_cons (radix : Nat) (ds : List Nat) : valueOf radix (0 :: ds) = valueOf radix ds := by
  rw [valueOf, Nat.zero_mul, Nat.zero_add]

/-- A zero before a string changes neither its alphabet check nor its value. -/
theorem parseDigits_zero_cons (b : Base) (cs : List CharCode) : parseDigits b (0x30#8 :: cs) = parseDigits b cs := by
  rw [parseDigits, parseDigits, digitsOf_zero_cons]
  cases digitsOf b cs with
  | none => rfl
  | some ds => exact congrArg Except.ok (valueOf_zero_cons b.radix ds)

/-- Zeros before a string of at least one character change nothing of what is read from it. -/
theorem parseString_replicate_zero_append (b : Base) (k : Nat) {cs : List CharCode} (hne : cs ≠ []) :
    parseString b (some (List.replicate k 0x30#8 ++ cs)) = parseString b (some cs) := by
  rw [parseString_some b _ (List.append_ne_nil_of_right_ne_nil _ hne), parseString_some b cs hne]
  induction k with
  | zero => rfl
  | succ k ih => rw [List.replicate_succ, List.cons_append, parseDigits_zero_cons, ih]

/-- DECBIN answers two strings alike when its decoder does. -/
theorem exec_decbin_congr (s : State) {str str' : StringOperand} (h : decodeBinary32 str = decodeBinary32 str') :
    exec (.decbin str) s = exec (.decbin str') s :=
  congrArg (fun result => Host.Outcome.next (s.deliverSigned result)) h

/-- DECOCT answers two strings alike when its decoder does. -/
theorem exec_decoct_congr (s : State) {str str' : StringOperand}
    (h : decodeOctal32 Config.octDecodePolicy str = decodeOctal32 Config.octDecodePolicy str') :
    exec (.decoct str) s = exec (.decoct str') s :=
  congrArg (fun result => Host.Outcome.next (s.deliverSigned result)) h

/-- DECHEX answers two strings alike when its decoder does. -/
theorem exec_dechex_congr (s : State) {str str' : StringOperand}
    (h : decodeHex32 Config.hexDecodePolicy str = decodeHex32 Config.hexDecodePolicy str') :
    exec (.dechex str) s = exec (.dechex str') s :=
  congrArg (fun result => Host.Outcome.next (s.deliverSigned result)) h

/-- Settles O30: the checks after the length test and the value are those of the string without the zeros. -/
theorem leadingZerosChangeNothing : Obligations.LeadingZerosChangeNothing := by
  intro k cs s hne
  have hparse (b : Base) := parseString_replicate_zero_append b k hne
  refine ⟨exec_decoct_congr s ?_, exec_dechex_congr s ?_, fun hlen => exec_decbin_congr s ?_⟩
  · rw [decodeOctal32, decodeOctal32, hparse]
  · rw [decodeHex32, decodeHex32, hparse]
  · have hpadded : (List.replicate k 0x30#8 ++ cs).length ≤ 32 := by simpa using hlen
    rw [decodeBinary32_of_length_le hpadded, decodeBinary32_of_length_le (by omega), hparse]

end Sys2Proof.Machine
end
